-- ==== Sys2Proof/Word.lean ====
section
/-! DEFINITION. The words of the block: bytes on the wire, 16-bit frame-buffer words (R8), 32-bit
command words (R90). Every value is unsigned (R13). -/

namespace Sys2Proof

/-- A wire byte or an 8-bit field of a command word (R90, R52). -/
abbrev Byte := BitVec 8

/-- A frame-buffer word, `W = 16` bits (R8). -/
abbrev Word := BitVec 16

/-- A command word (R90). -/
abbrev CommandWord := BitVec 32

end Sys2Proof
end

