-- ==== Sys2Proof/Config.lean ====
section
/-! DEFINITION. The constants and the construction parameters of the block (spec/00_scope.md, section 3).
The block leaves no result undefined, so there is no free value here (log 14). -/

namespace Sys2Proof

namespace Config

/-- `COLS`: columns per device (R7). -/
def cols : Nat := 8

/-- The most devices a block can be constructed with (R6). -/
def maxDevices : Nat := 8

/-- `ADDR_MIN` (R9). -/
def addrMin : Byte := 0x70#8

/-- `ADDR_MAX` (R9). -/
def addrMax : Byte := 0x77#8

/-- `ADDR_BASE`, the first default address (R9). -/
def addrBase : Byte := 0x70#8

/-- `ROW_CAPS`, the accepted row capacities (R10). -/
def rowCaps : List Nat := [8, 12, 16]

/-- The row capacity of the minimum variant, which every entry holds at reset (R10, R36). -/
def rowMin : Nat := 8

end Config

/-- The parameters fixed at construction. -/
structure Params where
  /-- `N`, the number of managed devices (R6). -/
  n : Nat
  /-- `DEFAULT_BRIGHTNESS`, 0..15 (R11). -/
  defaultBrightness : BitVec 4
  deriving DecidableEq, Repr

/-- `1 <= N <= 8` (R6). -/
abbrev Params.legal (p : Params) : Prop := 1 ≤ p.n ∧ p.n ≤ Config.maxDevices

/-- The parameters of `State.reset`. DESIGN CHOICE (log 1): `N = 8`, the maximum the source supports.
`DEFAULT_BRIGHTNESS = 8` is the spec's reference value (R11, log 2). -/
def Params.reference : Params := { n := 8, defaultBrightness := 8#4 }

end Sys2Proof
end

