-- ==== Sys2Proof/Syntax.lean ====
section
/-! DEFINITION. The instructions: one constructor per row of spec/opcode_table.json (eight command words,
R91 and R93; four wire messages, R82 to R87), and the two encoding domains of R80. -/

namespace Sys2Proof

/-- One constructor per row of the opcode table. `dsel` is the bit DSEL, `dev` the field DEV, which is
kept even where `dsel = false` makes the command ignore it (R93, R95). -/
inductive Instr where
  /-- INIT (R182). -/
  | init
  /-- CLEAR (R133). -/
  | clear (dsel : Bool) (dev : Byte)
  /-- SET_BRIGHTNESS (R185). -/
  | setBrightness (dsel : Bool) (dev level : Byte)
  /-- SET_LED (R134). -/
  | setLed (dsel : Bool) (dev : Byte) (state : Bool) (row col : Byte)
  /-- GET_LED (R135). -/
  | getLed (dsel : Bool) (dev row col : Byte)
  /-- FLUSH (R186). -/
  | flush (dsel : Bool) (dev : Byte)
  /-- SET_ADDRESS (R110); DSEL is always 1. -/
  | setAddress (dev addr : Byte)
  /-- SET_ROW_CAPACITY (R111); DSEL is always 1. -/
  | setRowCapacity (dev rows : Byte)
  /-- W_POWER_ON (R82, R151). -/
  | wPowerOn
  /-- W_DISPLAY_SETUP (R83, R152). -/
  | wDisplaySetup
  /-- W_DIMMING (R84, R153); `level` is the byte's bits 3:0. -/
  | wDimming (level : BitVec 4)
  /-- W_RAM_WRITE (R85, R86, R154); `words` are the slice words `w[0..7]`, column 0 first. -/
  | wRamWrite (words : List Word)
  deriving DecidableEq, Repr

/-- The two encoding domains (R80): a 32-bit command word, or the bytes of one wire message. -/
inductive Code where
  | command (w : CommandWord)
  | wire (bytes : List Byte)
  deriving DecidableEq, Repr

/-- A row of the table with format CMD32 (a host command), and not WIRE8. -/
def Instr.isCommand : Instr → Bool
  | .init | .clear .. | .setBrightness .. | .setLed .. | .getLed .. | .flush .. => true
  | .setAddress .. | .setRowCapacity .. => true
  | .wPowerOn | .wDisplaySetup | .wDimming _ | .wRamWrite _ => false

end Sys2Proof
end

