-- ==== Sys2Proof/WellFormed.lean ====
section
/-! DEFINITION. Well-formed instructions. The types already bound every field but one: a W_RAM_WRITE
carries exactly the `COLS` words of one slice (R85, R154). -/

namespace Sys2Proof

/-- The instruction is one its encoding can carry. -/
def Instr.wellFormed : Instr → Bool
  | .init => true
  | .clear _ _ => true
  | .setBrightness _ _ _ => true
  | .setLed _ _ _ _ _ => true
  | .getLed _ _ _ _ => true
  | .flush _ _ => true
  | .setAddress _ _ => true
  | .setRowCapacity _ _ => true
  | .wPowerOn => true
  | .wDisplaySetup => true
  | .wDimming _ => true
  | .wRamWrite words => words.length == Config.cols

end Sys2Proof
end

