-- ==== Sys2Proof/Decode.lean ====
section
/-! DEFINITION. Decoding, total on every 32-bit command word (R96) and every byte string (R81, R87), and
after it the encoder, written from the tables of R97 and of R82 to R86. -/

namespace Sys2Proof

/-! ### Command words -/

/-- The eight commands of R91. -/
inductive CmdOp where
  | init | clear | setBrightness | setLed | getLed | flush | setAddress | setRowCapacity
  deriving DecidableEq, Repr

/-- One row of the match/mask table of R93. -/
structure CmdRow where
  op : CmdOp
  pattern : CommandWord
  mask : CommandWord
  deriving DecidableEq, Repr

/-- The match/mask table of R93. -/
def cmdRows : List CmdRow :=
  [ ⟨.init,           0x10000000#32, 0xFFFFFFFF#32⟩,
    ⟨.clear,          0x20000000#32, 0xF700FFFF#32⟩,
    ⟨.setBrightness,  0x30000000#32, 0xF70000FF#32⟩,
    ⟨.setLed,         0x40000000#32, 0xF3000000#32⟩,
    ⟨.getLed,         0x50000000#32, 0xF7000000#32⟩,
    ⟨.flush,          0x60000000#32, 0xF700FFFF#32⟩,
    ⟨.setAddress,     0x78000000#32, 0xFF0000FF#32⟩,
    ⟨.setRowCapacity, 0x88000000#32, 0xFF0000FF#32⟩ ]

/-- The word selects this row (R93). -/
def CmdRow.selects (r : CmdRow) (w : CommandWord) : Bool := w &&& r.mask == r.pattern

/-- DSEL, bit 27 (R90). -/
def fieldDsel (w : CommandWord) : Bool := w.getLsbD 27

/-- STATE, bit 26 (R90). -/
def fieldState (w : CommandWord) : Bool := w.getLsbD 26

/-- DEV, bits 23:16 (R90). -/
def fieldDev (w : CommandWord) : Byte := w.extractLsb' 16 8

/-- A, bits 15:8 (R90). -/
def fieldA (w : CommandWord) : Byte := w.extractLsb' 8 8

/-- B, bits 7:0 (R90). -/
def fieldB (w : CommandWord) : Byte := w.extractLsb' 0 8

/-- The instruction of a selected row, its operands read as R92 and R93 say. -/
def CmdOp.build (op : CmdOp) (w : CommandWord) : Instr :=
  match op with
  | .init           => .init
  | .clear          => .clear (fieldDsel w) (fieldDev w)
  | .setBrightness  => .setBrightness (fieldDsel w) (fieldDev w) (fieldA w)
  | .setLed         => .setLed (fieldDsel w) (fieldDev w) (fieldState w) (fieldA w) (fieldB w)
  | .getLed         => .getLed (fieldDsel w) (fieldDev w) (fieldA w) (fieldB w)
  | .flush          => .flush (fieldDsel w) (fieldDev w)
  | .setAddress     => .setAddress (fieldDev w) (fieldA w)
  | .setRowCapacity => .setRowCapacity (fieldDev w) (fieldA w)

/-- Why a code is no instruction. -/
inductive DecodeError where
  /-- A command word that matches no row of R93 (R94). -/
  | reservedCommand (w : CommandWord)
  /-- Bytes that are not exactly one of the four wire messages (R87). -/
  | unknownWireMessage (bytes : List Byte)
  deriving DecidableEq, Repr

/-- The decode procedure of R96. -/
def decodeCommand (w : CommandWord) : Except DecodeError Instr :=
  match cmdRows.find? (fun r => r.selects w) with
  | some r => .ok (r.op.build w)
  | none   => .error (.reservedCommand w)

/-! ### Wire messages -/

/-- The length of the message that a first byte opens (R81): 0x00 begins a 17-byte frame write, every
other first byte is a whole message. -/
def messageLength (first : Byte) : Nat := if first = 0x00#8 then 1 + 2 * Config.cols else 1

/-- The words of data bytes in low, high order (R86). -/
def wordsOfBytes : List Byte → List Word
  | lo :: hi :: rest => (hi ++ lo) :: wordsOfBytes rest
  | [_] => []
  | [] => []

/-- Reads one wire message from the front of a byte string (R87) and gives the bytes after it. -/
def decodeMessage : List Byte → Option (Instr × List Byte)
  | [] => none
  | b :: rest =>
    if b &&& 0xFF#8 = 0x21#8 then some (.wPowerOn, rest)
    else if b &&& 0xFF#8 = 0x81#8 then some (.wDisplaySetup, rest)
    else if b &&& 0xF0#8 = 0xE0#8 then some (.wDimming (b.extractLsb' 0 4), rest)
    else if b &&& 0xFF#8 = 0x00#8 then
      if rest.length < 2 * Config.cols then none
      else some (.wRamWrite (wordsOfBytes (rest.take (2 * Config.cols))), rest.drop (2 * Config.cols))
    else none

/-- Decoding, in either domain of R80. A wire code is exactly one message: its ends are BEGIN and END
(R81). -/
def decode : Code → Except DecodeError Instr
  | .command w => decodeCommand w
  | .wire bytes =>
    match decodeMessage bytes with
    | some (i, []) => .ok i
    | some (_, _ :: _) => .error (.unknownWireMessage bytes)
    | none => .error (.unknownWireMessage bytes)

/-! ### Words as the opcode table numbers them -/

/-- The first bytes of a number, least significant first. -/
def bytesOfNat (count w : Nat) : List Byte :=
  (List.range count).map fun k => BitVec.ofNat 8 (w >>> (8 * k))

/-- The code of a word of the opcode table: a CMD32 row is the command word itself; a WIRE8 row is the
bytes of its message, the bits above `nbits` zero, as long as its first byte says (R81). -/
def codeOfTable (nbits w : Nat) : Code :=
  if nbits = 32 then .command (BitVec.ofNat 32 w)
  else
    let v := w % 2 ^ nbits
    .wire (bytesOfNat (messageLength (BitVec.ofNat 8 v)) v)

/-- What the decoder reads from a word of the opcode table. -/
def decodeTableWord (nbits w : Nat) : Option Instr :=
  match decode (codeOfTable nbits w) with
  | .ok i => some i
  | .error _ => none

/-! ### The encoder -/

/-- DSEL and DEV in their places (R97: a given selector is `1<<27 | d<<16`). -/
def putSelector (dsel : Bool) (dev : Byte) : CommandWord :=
  (BitVec.ofBool dsel).setWidth 32 <<< 27 ||| dev.setWidth 32 <<< 16

/-- STATE in its place. -/
def putState (state : Bool) : CommandWord := (BitVec.ofBool state).setWidth 32 <<< 26

/-- Field A in its place. -/
def putA (a : Byte) : CommandWord := a.setWidth 32 <<< 8

/-- Field B in its place. -/
def putB (b : Byte) : CommandWord := b.setWidth 32

/-- Message byte `k + 1` of a frame write by R86: `w[k >> 1][8*(k & 1) + 7 : 8*(k & 1)]`. -/
def frameDataByte (words : List Word) (k : Nat) : Byte :=
  (words.getD (k / 2) 0#16).extractLsb' (8 * (k % 2)) 8

/-- The words of an instruction: R97 for the commands, R82 to R86 for the messages. -/
def encode : Instr → Code
  | .init => .command 0x10000000#32
  | .clear dsel dev => .command (0x20000000#32 ||| putSelector dsel dev)
  | .setBrightness dsel dev level => .command (0x30000000#32 ||| putSelector dsel dev ||| putA level)
  | .setLed dsel dev state row col =>
    .command (0x40000000#32 ||| putSelector dsel dev ||| putState state ||| putA row ||| putB col)
  | .getLed dsel dev row col =>
    .command (0x50000000#32 ||| putSelector dsel dev ||| putA row ||| putB col)
  | .flush dsel dev => .command (0x60000000#32 ||| putSelector dsel dev)
  | .setAddress dev addr => .command (0x70000000#32 ||| putSelector true dev ||| putA addr)
  | .setRowCapacity dev rows => .command (0x80000000#32 ||| putSelector true dev ||| putA rows)
  | .wPowerOn => .wire [0x21#8]
  | .wDisplaySetup => .wire [0x80#8 ||| 0x01#8 ||| 0x00#8]
  | .wDimming level => .wire [0xE0#8 ||| level.setWidth 8]
  | .wRamWrite words => .wire (0x00#8 :: (List.range (2 * Config.cols)).map (frameDataByte words))

end Sys2Proof
end

