-- ==== Sys2Proof/Machine/State.lean ====
section
/-! DEFINITION. The state of the block (spec/10_state.md), its reset (R240), and the reasons a step can
stop. Every field is plain data. -/

namespace Sys2Proof.Machine

/-- `Mode` (R33). The value 3 is never held, so it is no constructor. -/
inductive Mode where
  | uninitialized | ready | disabled
  deriving DecidableEq, Repr

/-- The 2-bit encoding of `Mode` (R33, D32). -/
def Mode.code : Mode → BitVec 2
  | .uninitialized => 0#2
  | .ready => 1#2
  | .disabled => 2#2

/-- `Alloc`, the frame buffer's allocation status (R40). -/
inductive AllocStatus where
  | unallocated | allocated
  deriving DecidableEq, Repr

/-- The frame-buffer words that are not 0, by flat index, in rising order (log 9). The unit is the 16-bit
word: the buffer has no byte view (R61, R65). -/
abbrev Memory := List (Nat × Word)

/-- A transport event (R52): `BEGIN(a)`, `WRITE(b)` and `END`. -/
inductive Event where
  | beginTx (a : Byte)
  | write (b : Byte)
  | endTx
  deriving DecidableEq, Repr

/-- The reasons of `refuse` (R17, R218). -/
inductive RefuseReason where
  /-- A reserved command word (R94). -/
  | reservedCommand (w : CommandWord)
  /-- INIT in Ready or Disabled (R184). -/
  | reInit
  deriving DecidableEq, Repr

/-- What the outside drives while a request is executed. -/
structure Inputs where
  /-- The `alloc_ok` input (R12, R54): a free draw at each INIT (log 3). -/
  allocOk : Bool
  /-- Whether the transport accepts the events of this request (R250, log 4). The model's own field. -/
  accepts : Bool
  /-- The device a serializer operation that runs by itself is for, the argument of `Mux` (R157,
  log 8). The model's own field; no command reads it. -/
  selDev : Nat
  deriving DecidableEq, Repr

/-- One request: what is to be decoded, and the inputs that go with it. -/
structure Request where
  code : Code
  inputs : Inputs
  deriving DecidableEq, Repr

/-- The state of the block, with its ports. -/
structure State where
  /-- `N` and `DEFAULT_BRIGHTNESS`, fixed at construction (R6, R11). -/
  params : Params
  /-- `Mode` (R33). -/
  mode : Mode
  /-- `Addr[0..N-1]` (R35). -/
  addr : List Byte
  /-- `Rows[0..N-1]`, 5 bits each (R36). -/
  rows : List (BitVec 5)
  /-- `Alloc` (R40). -/
  alloc : AllocStatus
  /-- `FB` (R41): the words that are not 0. -/
  fb : Memory
  /-- `Refused`, the model's mark (R43). -/
  refused : Bool
  /-- The reasons that came with the mark, oldest first (R43, log 6). -/
  refusals : List RefuseReason
  /-- The output stream of the transport port (R17, R52), from the first event on. -/
  events : List Event
  /-- The response port after the latest command (R51, log 11). -/
  response : Option Bool
  /-- The responses placed so far, oldest first (D30, log 11). -/
  responses : List Bool
  /-- The host's stream from the next request on (R31, R53, log 5). -/
  pending : List Request
  /-- The position of the next command in the host's stream (R31). -/
  pos : Nat
  /-- The inputs as sampled with the request being executed. -/
  inputs : Inputs
  deriving DecidableEq, Repr

/-- The faults. The block itself has none (R210). -/
inductive Fault where
  /-- Raised by a command that emits at least one event while the transport does not accept: the command
  never completes (R218 "stuck", R250; log 4). Safe: the run stops. -/
  | transportStuck
  deriving DecidableEq, Repr

/-- The refusals: what the model gives no meaning. -/
inductive Refusal where
  /-- Raised by an arm of `exec` whose instruction has no meaning yet. Safe. -/
  | notModelled (mnemonic : String)
  /-- Raised by a step whose wire code is none of the four messages (R87): the block has no operation
  for it (log 12). Safe. -/
  | unknownWireMessage (bytes : List Byte)
  deriving DecidableEq, Repr

/-- The default address table: `Addr[d] = ADDR_BASE + d` for `d < N` (R35, R240). -/
def defaultAddr (n : Nat) : List Byte :=
  (List.range n).map fun d => Config.addrBase + BitVec.ofNat 8 d

/-- The default row-capacity table: 8 for every device (R36, R240). -/
def defaultRows (n : Nat) : List (BitVec 5) := List.replicate n (BitVec.ofNat 5 Config.rowMin)

/-- The inputs at reset. DESIGN CHOICE (logs 3, 4, 8): allocation succeeds, the transport accepts,
device 0. -/
def Inputs.atReset : Inputs := { allocOk := true, accepts := true, selDev := 0 }

/-- The state after construction with the given parameters (R240, R241). -/
def State.initial (p : Params) : State where
  params := p
  mode := .uninitialized
  addr := defaultAddr p.n
  rows := defaultRows p.n
  alloc := .unallocated
  fb := []
  refused := false
  refusals := []
  events := []
  response := none
  responses := []
  pending := []
  pos := 0
  inputs := .atReset

/-- The machine right after reset, which is its construction (R240, D34), with the reference parameters
(log 1). -/
def State.reset : State := State.initial Params.reference

end Sys2Proof.Machine
end

