-- ==== Sys2Proof/Machine/Ops.lean ====
section
/-! DEFINITION. The named operations over the frame buffer, the tables and the ports. The block takes no
exception and returns from none (R210, R217); what stands in that place is `refuse` (R17, R43). -/

namespace Sys2Proof.Machine

/-! ### Construction -/

/-- Why a construction is refused (R6, R218). -/
inductive ConstructionRefused where
  | deviceCount (n : Nat)
  deriving DecidableEq, Repr

/-- Construction with parameters (R6, R240): refused when `N = 0` or `N > 8`. -/
def construct (p : Params) : Except ConstructionRefused State :=
  if p.legal then .ok (State.initial p) else .error (.deviceCount p.n)

/-! ### Frame-buffer memory -/

/-- The canonical form: indices strictly rising, no word equal to what an unlisted index reads as. -/
abbrev Memory.wf (m : Memory) : Prop :=
  m.Pairwise (fun a b => a.1 < b.1) ∧ ∀ c ∈ m, c.2 ≠ 0#16

/-- The word at an index; an unlisted word is 0, as allocation leaves it (R41). -/
def Memory.read : Memory → Nat → Word
  | [], _ => 0#16
  | (j, x) :: m, i => if i = j then x else Memory.read m i

/-- The word at an index set to `v`. Writing 0 takes the entry away. -/
def Memory.write : Memory → Nat → Word → Memory
  | [], i, v => if v = 0#16 then [] else [(i, v)]
  | (j, x) :: m, i, v =>
    if i < j then (if v = 0#16 then (j, x) :: m else (i, v) :: (j, x) :: m)
    else if i = j then (if v = 0#16 then m else (i, v) :: m)
    else (j, x) :: Memory.write m i v

/-- `FBIndex(d, c) = d * COLS + c` (R62). -/
def fbIndex (d c : Nat) : Nat := d * Config.cols + c

/-- The domain of the access primitives: `0 <= i < 8N` with `Alloc = Allocated` (R61). -/
def fbExists (s : State) (i : Nat) : Bool :=
  s.alloc == .allocated && decide (i < Config.cols * s.params.n)

/-- `MemRead(i, 1)` (R61); 0 where the word does not exist (R75, R70; log 10). -/
def memRead (s : State) (i : Nat) : Word := if fbExists s i then s.fb.read i else 0#16

/-- `MemWrite(i, 1, v)` (R61); nothing where the word does not exist (R75, R70; log 10). -/
def memWrite (s : State) (i : Nat) (v : Word) : State :=
  { s with fb := if fbExists s i then s.fb.write i v else s.fb }

/-- `Slice(d)` (R158): the words of device `d`, column 0 first. -/
def slice (s : State) (d : Nat) : List Word :=
  (List.range Config.cols).map fun c => memRead s (fbIndex d c)

/-- `for c in 0..7: MemWrite(d*8 + c, 1, 0x0000)` (R133, R183). -/
def clearSlice (s : State) (d : Nat) : State :=
  (List.range Config.cols).foldl (fun t c => memWrite t (fbIndex d c) 0#16) s

/-- Allocation (R182): the buffer exists with every word 0 and the mode is Ready. -/
def allocate (s : State) : State := { s with alloc := .allocated, fb := [], mode := .ready }

/-! ### Outcomes in sequence -/

/-- The second operation on the state the first leaves; a stop of the first is the outcome. -/
def andThen (o : Host.Outcome State Fault Refusal) (f : State → Host.Outcome State Fault Refusal) :
    Host.Outcome State Fault Refusal :=
  match o with
  | .next s => f s
  | .fault r => .fault r
  | .refused r => .refused r

/-! ### Ports -/

/-- `emit` (R17) applied to each event of a list in order (R155). When there is an event and the transport
does not accept, the command never completes (R250, log 4). -/
def emit (es : List Event) (s : State) : Host.Outcome State Fault Refusal :=
  if es.isEmpty then .next s
  else if s.inputs.accepts then .next { s with events := s.events ++ es }
  else .fault .transportStuck

/-- `refuse(reason)` (R17): sets the persistent mark with the reason and changes nothing else (R43). -/
def refuse (r : RefuseReason) (s : State) : State :=
  { s with refused := true, refusals := s.refusals ++ [r] }

/-- The command port accepts a request: the position advances by one (R31), the inputs are sampled, and
the response port is free for this command's result (R53, log 11). -/
def accept (r : Request) (rest : List Request) (s : State) : State :=
  { s with pending := rest, pos := s.pos + 1, inputs := r.inputs, response := none }

/-- What a step does with a code that is no instruction. A reserved command word is refused with the mark
(R94, R180); bytes that are no wire message have no meaning at all (log 12). -/
def rejectCode (e : DecodeError) (s : State) : Host.Outcome State Fault Refusal :=
  match e with
  | .reservedCommand w => .next (refuse (.reservedCommand w) s)
  | .unknownWireMessage bytes => .refused (.unknownWireMessage bytes)

end Sys2Proof.Machine
end

