-- ==== Sys2Proof/Machine/Operands.lean ====
section
/-! DEFINITION. The operand forms: the device selectors (R131, R156), the bounds check (R132), the values
the setters accept (R110, R111), and the one bit a row names (R64). -/

namespace Sys2Proof.Machine

/-- `Targets(dsel, dev)` (R156): one device, none when it does not exist, or all in ascending order. -/
def targets (n : Nat) (dsel : Bool) (dev : Byte) : List Nat :=
  if dsel then (if dev.toNat < n then [dev.toNat] else []) else List.range n

/-- The device SET_LED and GET_LED act on (R131). -/
def ledDevice (dsel : Bool) (dev : Byte) : Nat := if dsel then dev.toNat else 0

/-- `BufferUsable` is `Mode == Ready` (R130). -/
def bufferUsable (s : State) : Bool := s.mode == .ready

/-- `InRange(d, row, col)` (R132): `d < N and row < Rows[d] and col < COLS`, left to right. A device
without an entry is out of range (R37, log 13). -/
def inRange (s : State) (d row col : Nat) : Bool :=
  decide (d < s.params.n) &&
    (match s.rows[d]? with
      | some cap => decide (row < cap.toNat)
      | none => false) &&
    decide (col < Config.cols)

/-- The bus addresses configuration accepts (R9). -/
def addrLegal (a : Byte) : Bool := decide (Config.addrMin ≤ a) && decide (a ≤ Config.addrMax)

/-- The row capacities configuration accepts (R10). -/
def rowsLegal (r : Nat) : Bool := Config.rowCaps.contains r

/-- The word with one bit set: `old | (0x0001 << row)` (R134). -/
def setRow (old : Word) (row : Nat) : Word := old ||| 1#16 <<< row

/-- The word with one bit cleared: `old & ~(0x0001 << row)` (R134). -/
def clearRow (old : Word) (row : Nat) : Word := old &&& ~~~(1#16 <<< row)

end Sys2Proof.Machine
end

