-- ==== Sys2Proof/Machine/Flags.lean ====
section
/-! DEFINITION. The block has no flags and no condition codes (R32). A command's result is one bit on the
response port (R51). -/

namespace Sys2Proof.Machine

/-- `respond(v)` (R17): places a result on the response port. -/
def respond (v : Bool) (s : State) : State :=
  { s with response := some v, responses := s.responses ++ [v] }

end Sys2Proof.Machine
end

