-- ==== Sys2Proof/Machine/ProtocolEncoder.lean ====
section
/-! DEFINITION. The serializer functions and the device multiplexer (spec/43_protocol_encoder.md), and the
meanings of the opcode table's four wire rows: each runs one serializer function and sends its bytes as one
transaction to the selected device (log 7). -/

namespace Sys2Proof.Machine

/-- `EncPowerOn()` (R151). -/
def encPowerOn : List Byte := [0x21#8]

/-- `EncSetup()` (R152). -/
def encSetup : List Byte := [0x80#8 ||| 0x01#8 ||| 0x00#8]

/-- `EncBrightness(level)` (R153). -/
def encBrightness (level : Byte) : List Byte := [0xE0#8 ||| (level &&& 0x0F#8)]

/-- `EncFrame(w[0..7])` (R154): the opcode, then each word's low byte and high byte. -/
def encFrame (w : List Word) : List Byte :=
  0x00#8 :: w.flatMap fun x => [x.extractLsb' 0 8, x.extractLsb' 8 8]

/-- `Txn(a, bs)` (R155). -/
def txn (a : Byte) (bs : List Byte) : List Event := .beginTx a :: (bs.map .write ++ [.endTx])

/-- The transaction of one device, to the address the table holds for it (R157). A device without an
entry has none (R37, log 13). -/
def txnFor (s : State) (d : Nat) (bs : List Byte) : List Event :=
  match s.addr[d]? with
  | some a => txn a bs
  | none => []

/-- `Mux(ts, f)` (R157). -/
def mux (s : State) (ts : List Nat) (f : Nat → List Byte) : List Event :=
  ts.flatMap fun d => txnFor s d (f d)

/-- The transaction of a serializer operation that runs by itself, to the device its request selects;
a device at or above `N` selects none (R156). -/
def serialize (bs : List Byte) (s : State) : Host.Outcome State Fault Refusal :=
  emit (mux s (if s.inputs.selDev < s.params.n then [s.inputs.selDev] else []) fun _ => bs) s

/-- W_POWER_ON: `EncPowerOn()` (R82, R151). -/
def execWPowerOn (s : State) : Host.Outcome State Fault Refusal := serialize encPowerOn s

/-- W_DISPLAY_SETUP: `EncSetup()` (R83, R152). -/
def execWDisplaySetup (s : State) : Host.Outcome State Fault Refusal := serialize encSetup s

/-- W_DIMMING: `EncBrightness(level)` (R84, R153). -/
def execWDimming (level : BitVec 4) (s : State) : Host.Outcome State Fault Refusal :=
  serialize (encBrightness (level.setWidth 8)) s

/-- W_RAM_WRITE: `EncFrame(w)` (R85, R86, R154). -/
def execWRamWrite (words : List Word) (s : State) : Host.Outcome State Fault Refusal :=
  serialize (encFrame words) s

end Sys2Proof.Machine
end

