-- ==== Sys2Proof/Machine/AddressTable.lean ====
section
/-! DEFINITION. The AddressTable commands (spec/41_address_table.md). They read neither Mode nor the frame
buffer and emit nothing (R112). -/

namespace Sys2Proof.Machine

/-- SET_ADDRESS (R110). No uniqueness check (R113). -/
def execSetAddress (dev addr : Byte) (s : State) : Host.Outcome State Fault Refusal :=
  if dev.toNat < s.params.n && addrLegal addr then
    .next (respond true { s with addr := s.addr.set dev.toNat addr })
  else
    .next (respond false s)

/-- SET_ROW_CAPACITY (R111). No response in either case. -/
def execSetRowCapacity (dev rows : Byte) (s : State) : Host.Outcome State Fault Refusal :=
  if dev.toNat < s.params.n && rowsLegal rows.toNat then
    .next { s with rows := s.rows.set dev.toNat (rows.setWidth 5) }
  else
    .next s

end Sys2Proof.Machine
end

