-- ==== Sys2Proof/Machine/FrameBuffer.lean ====
section
/-! DEFINITION. The FrameBuffer commands (spec/42_frame_buffer.md). They never emit an event (R137). -/

namespace Sys2Proof.Machine

/-- CLEAR (R133). -/
def execClear (dsel : Bool) (dev : Byte) (s : State) : Host.Outcome State Fault Refusal :=
  if bufferUsable s then
    .next ((targets s.params.n dsel dev).foldl clearSlice s)
  else
    .next s

/-- SET_LED (R134). -/
def execSetLed (dsel : Bool) (dev : Byte) (state : Bool) (row col : Byte) (s : State) :
    Host.Outcome State Fault Refusal :=
  let d := ledDevice dsel dev
  if bufferUsable s && inRange s d row.toNat col.toNat then
    let i := fbIndex d col.toNat
    let old := memRead s i
    .next (memWrite s i (if state then setRow old row.toNat else clearRow old row.toNat))
  else
    .next s

/-- GET_LED (R135). -/
def execGetLed (dsel : Bool) (dev row col : Byte) (s : State) : Host.Outcome State Fault Refusal :=
  let d := ledDevice dsel dev
  if bufferUsable s && inRange s d row.toNat col.toNat then
    .next (respond ((memRead s (fbIndex d col.toNat)).getLsbD row.toNat) s)
  else
    .next (respond false s)

end Sys2Proof.Machine
end

