-- ==== Sys2Proof/Machine/DeviceController.lean ====
section
/-! DEFINITION. The DeviceController commands (spec/44_device_controller.md). Exactly these three transmit
(R181). -/

namespace Sys2Proof.Machine

/-- `InitDevice(d)` (R183): power-on, setup, default brightness, clear the slice, send the slice. -/
def initDevice (s : State) (d : Nat) : Host.Outcome State Fault Refusal :=
  andThen (emit (mux s [d] fun _ => encPowerOn) s) fun s =>
  andThen (emit (mux s [d] fun _ => encSetup) s) fun s =>
  andThen (emit (mux s [d] fun _ => encBrightness (s.params.defaultBrightness.setWidth 8)) s) fun s =>
  let s := clearSlice s d
  emit (mux s [d] fun x => encFrame (slice s x)) s

/-- `InitDevice` for each device of a list, one after the other (R183). -/
def initDevices : List Nat → State → Host.Outcome State Fault Refusal
  | [], s => .next s
  | d :: ds, s => andThen (initDevice s d) (initDevices ds)

/-- INIT (R182, R184). -/
def execInit (s : State) : Host.Outcome State Fault Refusal :=
  match s.mode with
  | .uninitialized =>
    if s.inputs.allocOk then initDevices (List.range s.params.n) (allocate s)
    else .next { s with mode := .disabled }
  | .ready => .next (refuse .reInit s)
  | .disabled => .next (refuse .reInit s)

/-- SET_BRIGHTNESS (R185), in every mode. -/
def execSetBrightness (dsel : Bool) (dev level : Byte) (s : State) : Host.Outcome State Fault Refusal :=
  emit (mux s (targets s.params.n dsel dev) fun _ => encBrightness level) s

/-- FLUSH (R186). -/
def execFlush (dsel : Bool) (dev : Byte) (s : State) : Host.Outcome State Fault Refusal :=
  if bufferUsable s then
    emit (mux s (targets s.params.n dsel dev) fun d => encFrame (slice s d)) s
  else
    .next s

end Sys2Proof.Machine
end

