-- ==== Sys2Proof/Machine/Dispatch.lean ====
section
/-! DEFINITION. The step's match (R180): one arm per row of the opcode table. -/

namespace Sys2Proof.Machine

/-- The effect of an instruction on a state whose command port has accepted it. -/
def exec (i : Instr) (s : State) : Host.Outcome State Fault Refusal :=
  match i with
  | .init => Sys2Proof.Machine.execInit s
  | .clear dsel dev => Sys2Proof.Machine.execClear dsel dev s
  | .setBrightness dsel dev level => Sys2Proof.Machine.execSetBrightness dsel dev level s
  | .setLed dsel dev state row col => Sys2Proof.Machine.execSetLed dsel dev state row col s
  | .getLed dsel dev row col => Sys2Proof.Machine.execGetLed dsel dev row col s
  | .flush dsel dev => Sys2Proof.Machine.execFlush dsel dev s
  | .setAddress dev addr => Sys2Proof.Machine.execSetAddress dev addr s
  | .setRowCapacity dev rows => Sys2Proof.Machine.execSetRowCapacity dev rows s
  | .wPowerOn => Sys2Proof.Machine.execWPowerOn s
  | .wDisplaySetup => Sys2Proof.Machine.execWDisplaySetup s
  | .wDimming level => Sys2Proof.Machine.execWDimming level s
  | .wRamWrite words => Sys2Proof.Machine.execWRamWrite words s

end Sys2Proof.Machine
end

