-- ==== Sys2Proof/Machine/Step.lean ====
section
/-! DEFINITION. One step (R180): accept the next request of the host's stream, decode it, run it. -/

namespace Sys2Proof.Machine

/-- One step. With no request on the command port the block waits and emits nothing (R241). -/
def step (s : State) : Host.Outcome State Fault Refusal :=
  match s.pending with
  | [] => .next s
  | r :: rest =>
    match decode r.code with
    | .ok i => exec i (accept r rest s)
    | .error e => rejectCode e (accept r rest s)

/-- The state with a word of the opcode table put where the next step takes its request: at the front of
the host's stream, in the place of the request that stood there, with the inputs the state holds (log 5). -/
def State.withFetchWord (s : State) (nbits w : Nat) : State :=
  { s with pending := { code := codeOfTable nbits w, inputs := s.inputs } :: s.pending.tail }

end Sys2Proof.Machine
end

