-- ==== Sys2Proof/Machine/Assembler.lean ====
section
/-! DEFINITION. The assembler of R97 and the pseudo-commands of R98: one command per line, an operand at
most 255, an omitted selector giving DSEL = 0. A line is a list of characters (log 15). -/

namespace Sys2Proof.Assembler

/-- One line, its operands as written. `none` is an omitted device selector. -/
inductive Line where
  | init
  | clear (d : Option Nat)
  | setBrightness (d : Option Nat) (level : Nat)
  | setLed (d : Option Nat) (row col s : Nat)
  | getLed (d : Option Nat) (row col : Nat)
  | flush (d : Option Nat)
  | setAddress (d addr : Nat)
  | setRowCapacity (d rows : Nat)
  | ledOn (d : Option Nat) (row col : Nat)
  | ledOff (d : Option Nat) (row col : Nat)
  | clearAll
  | flushAll
  | updateLed (d row col s : Nat)
  deriving DecidableEq, Repr

/-- An operand in its 8-bit field; a value above 255 is rejected (R97). -/
def operand (v : Nat) : Option Byte := if v ≤ 255 then some (BitVec.ofNat 8 v) else none

/-- A device selector: omitted gives DSEL = 0 and DEV = 0, present gives DSEL = 1 and DEV = d (R97). -/
def selector : Option Nat → Option (Bool × Byte)
  | none => some (false, 0#8)
  | some d => (operand d).map fun dev => (true, dev)

/-- `s` is 0 or 1 (R97). -/
def stateBit (v : Nat) : Option Bool := if v = 0 then some false else if v = 1 then some true else none

/-- SET_LED with its operands checked. -/
def setLedInstr (d : Option Nat) (row col s : Nat) : Option Instr := do
  let sel ← selector d
  let st ← stateBit s
  let r ← operand row
  let c ← operand col
  return .setLed sel.1 sel.2 st r c

/-- FLUSH with its selector checked. -/
def flushInstr (d : Option Nat) : Option Instr := (selector d).map fun sel => .flush sel.1 sel.2

/-- CLEAR with its selector checked. -/
def clearInstr (d : Option Nat) : Option Instr := (selector d).map fun sel => .clear sel.1 sel.2

/-- The instructions of a line, pseudo-commands expanded (R97, R98). -/
def instrs : Line → Option (List Instr)
  | .init => some [.init]
  | .clear d => (clearInstr d).map fun i => [i]
  | .setBrightness d level => do
    let sel ← selector d
    let l ← operand level
    return [.setBrightness sel.1 sel.2 l]
  | .setLed d row col s => (setLedInstr d row col s).map fun i => [i]
  | .getLed d row col => do
    let sel ← selector d
    let r ← operand row
    let c ← operand col
    return [.getLed sel.1 sel.2 r c]
  | .flush d => (flushInstr d).map fun i => [i]
  | .setAddress d addr => do
    let dev ← operand d
    let a ← operand addr
    return [.setAddress dev a]
  | .setRowCapacity d rows => do
    let dev ← operand d
    let r ← operand rows
    return [.setRowCapacity dev r]
  | .ledOn d row col => (setLedInstr d row col 1).map fun i => [i]
  | .ledOff d row col => (setLedInstr d row col 0).map fun i => [i]
  | .clearAll => (clearInstr none).map fun i => [i]
  | .flushAll => (flushInstr none).map fun i => [i]
  | .updateLed d row col s => do
    let i ← setLedInstr (some d) row col s
    let j ← flushInstr (some d)
    return [i, j]

/-- The words of a line (R97). -/
def assemble (l : Line) : Option (List Code) := (instrs l).map fun is => is.map encode

/-! ### Reading a line of text -/

/-- The value of a hexadecimal digit. -/
def digit (c : Char) : Option Nat :=
  let n := c.toNat
  if 48 ≤ n ∧ n ≤ 57 then some (n - 48)
  else if 65 ≤ n ∧ n ≤ 70 then some (n - 55)
  else if 97 ≤ n ∧ n ≤ 102 then some (n - 87)
  else none

/-- The digits after `acc` in a base. -/
def digits (base acc : Nat) : List Char → Option Nat
  | [] => some acc
  | c :: cs =>
    match digit c with
    | some v => if v < base then digits base (acc * base + v) cs else none
    | none => none

/-- A decimal or `0x` hexadecimal natural (R97). -/
def natural : List Char → Option Nat
  | [] => none
  | ['0', 'x'] => none
  | '0' :: 'x' :: cs => digits 16 0 cs
  | c :: cs => digits 10 0 (c :: cs)

/-- The text before the first character that satisfies `p`, and the text after it. -/
def splitAt (p : Char → Bool) : List Char → List Char × Option (List Char)
  | [] => ([], none)
  | c :: cs =>
    if p c then ([], some cs)
    else
      let r := splitAt p cs
      (c :: r.1, r.2)

/-- The pieces between commas. -/
def pieces : List Char → List (List Char)
  | [] => [[]]
  | c :: cs =>
    match pieces cs with
    | [] => [[c]]
    | p :: ps => if c = ',' then [] :: p :: ps else (c :: p) :: ps

/-- The text without the blanks before and after it. -/
def trim (cs : List Char) : List Char :=
  let lead := cs.dropWhile fun c => c == ' '
  (lead.reverse.dropWhile fun c => c == ' ').reverse

/-- The operands of a line; no text is no operand. Blanks may stand around an operand (log 15). -/
def operands (cs : List Char) : Option (List Nat) :=
  if (trim cs).isEmpty then some [] else (pieces cs).mapM fun p => natural (trim p)

/-- The line of a mnemonic and its operands (R97, R98). -/
def lineOf (mnemonic : List Char) (ops : List Nat) : Option Line :=
  if mnemonic = "INIT".toList then (match ops with | [] => some .init | _ => none)
  else if mnemonic = "CLEAR".toList then
    (match ops with | [] => some (.clear none) | [d] => some (.clear (some d)) | _ => none)
  else if mnemonic = "SET_BRIGHTNESS".toList then
    (match ops with
      | [l] => some (.setBrightness none l) | [d, l] => some (.setBrightness (some d) l) | _ => none)
  else if mnemonic = "SET_LED".toList then
    (match ops with
      | [r, c, s] => some (.setLed none r c s) | [d, r, c, s] => some (.setLed (some d) r c s) | _ => none)
  else if mnemonic = "GET_LED".toList then
    (match ops with
      | [r, c] => some (.getLed none r c) | [d, r, c] => some (.getLed (some d) r c) | _ => none)
  else if mnemonic = "FLUSH".toList then
    (match ops with | [] => some (.flush none) | [d] => some (.flush (some d)) | _ => none)
  else if mnemonic = "SET_ADDRESS".toList then
    (match ops with | [d, a] => some (.setAddress d a) | _ => none)
  else if mnemonic = "SET_ROW_CAPACITY".toList then
    (match ops with | [d, r] => some (.setRowCapacity d r) | _ => none)
  else if mnemonic = "LED_ON".toList then
    (match ops with | [r, c] => some (.ledOn none r c) | [d, r, c] => some (.ledOn (some d) r c) | _ => none)
  else if mnemonic = "LED_OFF".toList then
    (match ops with
      | [r, c] => some (.ledOff none r c) | [d, r, c] => some (.ledOff (some d) r c) | _ => none)
  else if mnemonic = "CLEAR_ALL".toList then (match ops with | [] => some .clearAll | _ => none)
  else if mnemonic = "FLUSH_ALL".toList then (match ops with | [] => some .flushAll | _ => none)
  else if mnemonic = "UPDATE_LED".toList then
    (match ops with | [d, r, c, s] => some (.updateLed d r c s) | _ => none)
  else none

/-- Reads one line: `MNEMONIC operands` (R97). -/
def parse (text : List Char) : Option Line :=
  match splitAt (fun c => c == ' ') text with
  | (m, none) => lineOf m []
  | (m, some rest) => (operands rest).bind (lineOf m)

end Sys2Proof.Assembler
end

