-- ==== Sys2Proof/Safety.lean ====
section
/-! DEFINITION. What the claims speak of: wire messages and complete transactions (R81, R87, R155), the
invariant of reachable states (R34 to R45), and the observation of a run (D30). -/

namespace Sys2Proof.Machine

/-- The four wire messages, as R82 to R87 list them: nothing else opens a transaction of the block. -/
def WireMessage (bs : List Byte) : Prop :=
  bs = [0x21#8] ∨ bs = [0x81#8] ∨ (∃ level : BitVec 4, bs = [0xE#4 ++ level]) ∨
    ∃ data : List Byte, data.length = 16 ∧ bs = 0x00#8 :: data

/-- The events are whole transactions, one after the other, each of one wire message to an accepted bus
address: every BEGIN is matched by an END before the next BEGIN, and none is left open (R155, R52, R35). -/
def Framed (es : List Event) : Prop :=
  ∃ ts : List (Byte × List Byte),
    es = ts.flatMap (fun t => txn t.1 t.2) ∧ ∀ t ∈ ts, addrLegal t.1 = true ∧ WireMessage t.2

/-- The invariant of every reachable state. -/
structure State.Inv (s : State) : Prop where
  /-- `1 <= N <= 8` (R6). -/
  params_legal : s.params.legal
  /-- One address entry per device (R35, R37). -/
  addr_length : s.addr.length = s.params.n
  /-- One capacity entry per device (R36, R37). -/
  rows_length : s.rows.length = s.params.n
  /-- An address entry always holds a legal value (R35). -/
  addr_legal : ∀ a ∈ s.addr, addrLegal a = true
  /-- A capacity entry is 8, 12 or 16 (R36). -/
  rows_legal : ∀ r ∈ s.rows, rowsLegal r.toNat = true
  /-- `Alloc = Allocated` if and only if `Mode = Ready` (R40). -/
  alloc_ready : s.alloc = .allocated ↔ s.mode = .ready
  /-- The memory's canonical form (log 9). -/
  fb_wf : s.fb.wf
  /-- `FB` has the indices `0..8N-1` (R41). -/
  fb_domain : ∀ c ∈ s.fb, c.1 < Config.cols * s.params.n
  /-- While Unallocated the buffer has no contents (R41). -/
  fb_unallocated : s.alloc = .unallocated → s.fb = []
  /-- No transaction is open, and each is legal (R155). -/
  events_framed : Framed s.events
  /-- The mark stands with a reason (R43). -/
  refused_reasons : s.refused = !s.refusals.isEmpty
  /-- A response on the port is the latest one placed (R51). -/
  response_last : ∀ v, s.response = some v → s.responses.getLast? = some v

/-- `Addr[d]`, for a device that has an entry (R35). -/
def State.busAddr (s : State) (d : Nat) : Byte := s.addr.getD d 0#8

/-- A command names an LED of the usable buffer (R130, R132). -/
def LedInRange (s : State) (d row col : Nat) : Prop :=
  s.mode = .ready ∧ d < s.params.n ∧ col < 8 ∧ ∃ cap, s.rows[d]? = some cap ∧ row < cap.toNat

/-- The transactions, bytes and events of an output (R254): its BEGINs, its WRITEs, its length. -/
def outputSize (es : List Event) : Nat × Nat × Nat :=
  (es.countP (fun e => match e with | .beginTx _ => true | .write _ => false | .endTx => false),
   es.countP (fun e => match e with | .beginTx _ => false | .write _ => true | .endTx => false),
   es.length)

/-- The state with a host's stream on the command port (D30, log 5). -/
def State.load (s : State) (stream : List Request) : State := { s with pending := stream }

/-- What a finished run shows (D30): the final state's tables and buffer are in the state itself. -/
structure Observation where
  events : List Event
  responses : List Bool
  refused : Bool
  deriving DecidableEq, Repr

/-- The observation of a state (D30). -/
def State.observe (s : State) : Observation :=
  { events := s.events, responses := s.responses, refused := s.refused }

/-- A successful run of a command stream from construction (D30): every command completes and the mark is
still 0. -/
def SuccessfulRun (p : Params) (stream : List Request) (t : State) : Prop :=
  ∃ s, construct p = .ok s ∧ Sys2Proof.core.run stream.length (s.load stream) = .next t ∧
    t.refused = false

end Sys2Proof.Machine
end

