-- ==== Sys2Proof/Certificates/Slice0/Obligations.lean ====
section
/-! DEFINITION. The statements for the provers. -/

open Sys2Proof Sys2Proof.Machine

/-! ### Encoding -/

/-- A few words of spec/95_test_vectors.md, section 2.1, and the four wire messages. -/
def Obligations.SpecWordsDecode : Prop :=
  decode (.command 0x10000000#32) = .ok .init ∧
  decode (.command 0x28FF0000#32) = .ok (.clear true 0xFF#8) ∧
  decode (.command 0x30001F00#32) = .ok (.setBrightness false 0#8 0x1F#8) ∧
  decode (.command 0x4CFFFFFF#32) = .ok (.setLed true 0xFF#8 true 0xFF#8 0xFF#8) ∧
  decode (.command 0x50000F07#32) = .ok (.getLed false 0#8 15#8 7#8) ∧
  decode (.command 0x68070000#32) = .ok (.flush true 7#8) ∧
  decode (.command 0x78017500#32) = .ok (.setAddress 1#8 0x75#8) ∧
  decode (.command 0x88001000#32) = .ok (.setRowCapacity 0#8 16#8) ∧
  decode (.command 0x23000000#32) = .error (.reservedCommand 0x23000000#32) ∧
  decode (.wire [0x21#8]) = .ok .wPowerOn ∧
  decode (.wire [0x81#8]) = .ok .wDisplaySetup ∧
  decode (.wire [0xE5#8]) = .ok (.wDimming 5#4) ∧
  decode (.wire (0x00#8 :: List.replicate 16 0x00#8)) = .ok (.wRamWrite (List.replicate 8 0#16))

/-- Decode and encode agree, for every well-formed instruction of all twelve rows. -/
def Obligations.DecodeEncodeRoundTrip : Prop :=
  ∀ i : Instr, i.wellFormed = true → decode (encode i) = .ok i

/-- Each code has one meaning: what decodes is what its instruction encodes to. -/
def Obligations.EncodeDecodeRoundTrip : Prop :=
  ∀ (c : Code) (i : Instr), decode c = .ok i → encode i = c ∧ i.wellFormed = true

/-- R94. A word is reserved exactly when one of the rule's four cases holds (fields of R90), and a step on
it sets the mark with the reason and changes no architectural state. That the run goes on from there is log 6;
the stream, the sampled inputs and the freed response port are logs 3, 5 and 11. -/
def Obligations.ReservedWordsAreRefused : Prop :=
  ∀ w : CommandWord,
    let op := w.extractLsb' 28 4
    let dsel := w.getLsbD 27
    let state := w.getLsbD 26
    let rsv := w.extractLsb' 24 2
    let dev := w.extractLsb' 16 8
    let a := w.extractLsb' 8 8
    let b := w.extractLsb' 0 8
    let reserved :=
      op = 0#4 ∨ 9 ≤ op.toNat ∨ rsv ≠ 0#2 ∨ (op ≠ 4#4 ∧ state = true) ∨
      (op = 1#4 ∧ (dsel = true ∨ dev ≠ 0#8 ∨ a ≠ 0#8 ∨ b ≠ 0#8)) ∨
      ((op = 2#4 ∨ op = 6#4) ∧ (a ≠ 0#8 ∨ b ≠ 0#8)) ∨
      (op = 3#4 ∧ b ≠ 0#8) ∨
      ((op = 7#4 ∨ op = 8#4) ∧ (dsel = false ∨ b ≠ 0#8))
    (decode (.command w) = .error (.reservedCommand w) ↔ reserved) ∧
    ∀ (s : State) (ins : Inputs) (rest : List Request),
      s.pending = { code := .command w, inputs := ins } :: rest → reserved →
      step s = .next { s with
        pending := rest, pos := s.pos + 1, inputs := ins, response := none,
        refused := true, refusals := s.refusals ++ [.reservedCommand w] }

/-! ### The step -/

/-- When the request at the command port decodes to an instruction, a step is that instruction's effect on
the state that has accepted the request (R180; the queue, the sampled inputs and the freed response port
are logs 3, 5 and 11). -/
def Obligations.StepRunsDecodedInstruction : Prop :=
  ∀ (s : State) (r : Request) (rest : List Request) (i : Instr),
    s.pending = r :: rest → decode r.code = .ok i →
    step s = exec i { s with
      pending := rest, pos := s.pos + 1, inputs := r.inputs, response := none }

/-- With no request the block waits and emits nothing (R241; log 5). -/
def Obligations.IdleStepWaits : Prop :=
  ∀ s : State, s.pending = [] → step s = .next s

/-- R31. The position advances by exactly one per accepted command, whatever the command does, and the
stream (log 5) goes on with the next one. -/
def Obligations.PositionAdvancesByOne : Prop :=
  ∀ (s t : State) (r : Request) (rest : List Request),
    s.pending = r :: rest → step s = .next t → t.pos = s.pos + 1 ∧ t.pending = rest

/-- Bytes that are none of the four wire messages have no meaning in the model (log 12). -/
def Obligations.UnknownWireBytesRefused : Prop :=
  ∀ (s : State) (bytes : List Byte) (ins : Inputs) (rest : List Request),
    s.pending = { code := .wire bytes, inputs := ins } :: rest →
    (∀ i, decode (.wire bytes) ≠ .ok i) →
    step s = .refused (.unknownWireMessage bytes)

/-- With the transport accepting, every instruction answers a next state in every state. That no command
traps or faults is R210. The rest is the model's choice: that INIT in Ready or Disabled, whose outcome by
R184, R210 and R218 is `refuse(ReInit)`, answers a next state with the mark (log 6), that a wire row runs by
itself (log 7), and that acceptance is an input of the request (log 4). -/
def Obligations.EveryInstructionCompletes : Prop :=
  ∀ (i : Instr) (s : State), s.inputs.accepts = true → ∃ t, exec i s = .next t

/-- In the model an instruction stops exactly when the transport does not accept and, with an accepting
transport, the instruction would emit (R218 "stuck", R250). The form of that stop is the model's choice
(log 4). That nothing else stops is the model's choice too: `refuse(ReInit)` (R184, R218) is a next state
with the mark (log 6), and a wire row runs by itself (log 7). -/
def Obligations.StuckExactlyWhenTransportRefuses : Prop :=
  ∀ (i : Instr) (s : State),
    (exec i s = .fault .transportStuck ↔
      s.inputs.accepts = false ∧
        ∃ t, exec i { s with inputs := { s.inputs with accepts := true } } = .next t ∧
          t.events ≠ s.events) ∧
    (∀ r, exec i s ≠ .refused r)

/-! ### Construction and reset -/

/-- The state after construction (R240); no word of the buffer can be read or written. The base address 0x70
is the spec's own choice D7, which errs both ways (log 14), and "no contents" as an empty list is log 9. -/
def Obligations.ConstructionGivesResetState : Prop :=
  ∀ p : Params, p.legal →
    ∃ s, construct p = .ok s ∧ s.params = p ∧ s.mode = .uninitialized ∧
      s.addr.length = p.n ∧ (∀ d, d < p.n → (s.addr[d]?).map BitVec.toNat = some (0x70 + d)) ∧
      s.rows.length = p.n ∧ (∀ d, d < p.n → (s.rows[d]?).map BitVec.toNat = some 8) ∧
      s.alloc = .unallocated ∧ s.fb = [] ∧ (∀ i, fbExists s i = false) ∧
      s.refused = false ∧ s.events = [] ∧ s.response = none

/-- R6. `N` is 1 to 8 or the construction is refused, and no step changes it. -/
def Obligations.DeviceCountBoundedAndFixed : Prop :=
  (∀ p : Params, 1 ≤ p.n → p.n ≤ 8 → ∃ s, construct p = .ok s ∧ s.params.n = p.n) ∧
  (∀ p : Params, p.n = 0 ∨ 8 < p.n → construct p = .error (.deviceCount p.n)) ∧
  (∀ s t : State, step s = .next t → t.params = s.params)

/-- `State.reset` is the construction with the model's reference parameters: `N = 8` is the model's choice
(log 1), `DEFAULT_BRIGHTNESS = 8` the spec's reference value (R11, log 2), and the inputs at reset are the
model's choice (logs 3, 4, 8). -/
def Obligations.ResetIsReferenceConstruction : Prop :=
  construct { n := 8, defaultBrightness := 8#4 } = .ok State.reset ∧ State.reset.pending = [] ∧
  State.reset.pos = 0 ∧ State.reset.inputs = { allocOk := true, accepts := true, selDev := 0 }

/-! ### Invariants and whole-machine rules -/

/-- The invariant holds after every construction, so at `State.reset`. -/
def Obligations.ConstructionMeetsInvariant : Prop :=
  (∀ (p : Params) (s : State), construct p = .ok s → s.Inv) ∧ State.reset.Inv

/-- Every step keeps the invariant: legal tables of length `N` (R35, R36, R37), `Alloc` and `Mode` in step
(R40), the buffer canonical, in range and empty while unallocated (R41), whole legal transactions only
(R155), the mark with its reasons (R43), the response the latest one (R51). -/
def Obligations.StepKeepsInvariant : Prop :=
  ∀ s t : State, s.Inv → step s = .next t → t.Inv

/-- R34. `Mode` starts Uninitialized and takes only the two transitions of INIT. -/
def Obligations.ModeTransitionsOnlyByInit : Prop :=
  (∀ (p : Params) (s : State), construct p = .ok s → s.mode = .uninitialized) ∧
  ∀ s t : State, step s = .next t → t.mode ≠ s.mode →
    s.mode = .uninitialized ∧
    ∃ r rest, s.pending = r :: rest ∧ decode r.code = .ok .init ∧
      ((r.inputs.allocOk = true ∧ t.mode = .ready) ∨ (r.inputs.allocOk = false ∧ t.mode = .disabled))

/-- R43. The mark is 0 at construction, is set together with a reason, and no step clears it. That all
reasons are kept, in order, is log 6. -/
def Obligations.RefusedMarkPersists : Prop :=
  (∀ (p : Params) (s : State), construct p = .ok s → s.refused = false) ∧
  (∀ (r : RefuseReason) (s : State), refuse r s = { s with refused := true, refusals := s.refusals ++ [r] }) ∧
  (∀ s t : State, step s = .next t → s.refused = true → t.refused = true) ∧
  (∀ s t : State, step s = .next t → s.refused = false → t.refused = true →
    ∃ r, t.refusals = s.refusals ++ [r])

/-- R181. Of the host's commands exactly INIT, SET_BRIGHTNESS and FLUSH emit transport events. -/
def Obligations.ExactlyThreeCommandsTransmit : Prop :=
  (∀ (i : Instr) (s t : State), i.isCommand = true → exec i s = .next t → t.events ≠ s.events →
    i = .init ∨ (∃ dsel dev level, i = .setBrightness dsel dev level) ∨ ∃ dsel dev, i = .flush dsel dev) ∧
  (∃ s t, exec .init s = .next t ∧ t.events ≠ s.events) ∧
  (∃ dsel dev level s t, exec (.setBrightness dsel dev level) s = .next t ∧ t.events ≠ s.events) ∧
  (∃ dsel dev s t, exec (.flush dsel dev) s = .next t ∧ t.events ≠ s.events)

/-- R155 and R87. A step only appends to the output stream, and what it appends are whole transactions
built by `Txn`, each opened by one of the four first bytes with that message's length. -/
def Obligations.StepAppendsWholeTransactions : Prop :=
  (∀ (a : Byte) (bs : List Byte), txn a bs = [.beginTx a] ++ bs.map .write ++ [.endTx]) ∧
  ∀ s t : State, step s = .next t →
    ∃ ts : List (Byte × List Byte),
      t.events = s.events ++ ts.flatMap (fun x => txn x.1 x.2) ∧
      ∀ x ∈ ts, x.1 ∈ s.addr ∧
        ((x.2.length = 17 ∧ x.2[0]? = some 0x00#8) ∨ x.2 = [0x21#8] ∨ x.2 = [0x81#8] ∨
          ∃ level : BitVec 4, x.2 = [0xE#4 ++ level])

/-- The "written by" column of R45's table, over every step. -/
def Obligations.StateWrittenOnlyByItsCommands : Prop :=
  ∀ s t : State, step s = .next t →
    let runs := fun i : Instr => ∃ r rest, s.pending = r :: rest ∧ decode r.code = .ok i
    (t.mode ≠ s.mode → runs .init) ∧ (t.alloc ≠ s.alloc → runs .init) ∧
    (t.addr ≠ s.addr → ∃ dev addr, runs (.setAddress dev addr)) ∧
    (t.rows ≠ s.rows → ∃ dev rows, runs (.setRowCapacity dev rows)) ∧
    (t.fb ≠ s.fb → runs .init ∨ (∃ dsel dev, runs (.clear dsel dev)) ∨
      ∃ dsel dev state row col, runs (.setLed dsel dev state row col)) ∧
    (t.refused ≠ s.refused → runs .init ∨
      ∃ r rest w, s.pending = r :: rest ∧ decode r.code = .error (.reservedCommand w))

/-- Disabled is inert in R212's sense: no step leaves it, allocates, or touches the buffer (R34, R212), the
buffer commands change nothing, GET_LED answers 0 and FLUSH emits nothing (R130, R186). The tables may still
be written and SET_BRIGHTNESS still transmits (R112, R185). -/
def Obligations.DisabledStaysInert : Prop :=
  (∀ s t : State, s.mode = .disabled → step s = .next t →
    t.mode = .disabled ∧ t.alloc = s.alloc ∧ t.fb = s.fb) ∧
  ∀ (s : State) (dsel : Bool) (dev row col : Byte) (state : Bool), s.mode = .disabled →
    exec (.clear dsel dev) s = .next s ∧ exec (.setLed dsel dev state row col) s = .next s ∧
    exec (.flush dsel dev) s = .next s ∧
    exec (.getLed dsel dev row col) s =
      .next { s with response := some false, responses := s.responses ++ [false] }

/-! ### AddressTable -/

/-- R110. SET_ADDRESS writes the entry and answers 1, or changes nothing and answers 0, in every mode. -/
def Obligations.SetAddressWritesOrRejects : Prop :=
  ∀ (s : State) (dev addr : Byte), s.addr.length = s.params.n →
    let legal := dev.toNat < s.params.n ∧ 0x70 ≤ addr.toNat ∧ addr.toNat ≤ 0x77
    (legal → ∃ table, exec (.setAddress dev addr) s =
        .next { s with addr := table, response := some true, responses := s.responses ++ [true] } ∧
      table.length = s.addr.length ∧ table[dev.toNat]? = some addr ∧
      ∀ d, d ≠ dev.toNat → table[d]? = s.addr[d]?) ∧
    (¬ legal → exec (.setAddress dev addr) s =
      .next { s with response := some false, responses := s.responses ++ [false] })

/-- R111. SET_ROW_CAPACITY writes the entry or changes nothing, and never responds. -/
def Obligations.SetRowCapacityWritesOrIgnores : Prop :=
  ∀ (s : State) (dev rows : Byte), s.rows.length = s.params.n →
    let legal := dev.toNat < s.params.n ∧ (rows.toNat = 8 ∨ rows.toNat = 12 ∨ rows.toNat = 16)
    (legal → ∃ table, exec (.setRowCapacity dev rows) s = .next { s with rows := table } ∧
      table.length = s.rows.length ∧ (table[dev.toNat]?).map BitVec.toNat = some rows.toNat ∧
      ∀ d, d ≠ dev.toNat → table[d]? = s.rows[d]?) ∧
    (¬ legal → exec (.setRowCapacity dev rows) s = .next s)

/-- The setters neither read nor write Mode, Alloc or FB, and emit nothing (R112). That they act alike in
Disabled is the spec's own choice D33, which errs both ways (log 14). -/
def Obligations.SettersIgnoreModeAndBuffer : Prop :=
  ∀ (s : State) (mode : Mode) (alloc : AllocStatus) (fb : Memory) (i : Instr),
    (∃ dev addr, i = .setAddress dev addr) ∨ (∃ dev rows, i = .setRowCapacity dev rows) →
    ∃ t, exec i s = .next t ∧ t.mode = s.mode ∧ t.alloc = s.alloc ∧ t.fb = s.fb ∧ t.events = s.events ∧
      exec i { s with mode := mode, alloc := alloc, fb := fb } =
        .next { t with mode := mode, alloc := alloc, fb := fb }

/-- R113. Two entries may hold one address, and both devices' transactions go to it. -/
def Obligations.DuplicateAddressIsAccepted : Prop :=
  ∀ (s : State) (d e : Byte), s.Inv → d.toNat < s.params.n → e.toNat < s.params.n →
    ∃ a t, s.addr[d.toNat]? = some a ∧ exec (.setAddress e a) s = .next t ∧ t.response = some true ∧
      t.addr[d.toNat]? = some a ∧ t.addr[e.toNat]? = some a ∧
      ∀ bs, mux t [d.toNat, e.toNat] (fun _ => bs) = txn a bs ++ txn a bs

/-- A new address sends nothing by itself, and moves only that device's later transactions (R114; the three
commands' effects are R110, R185 and R186). That SET_BRIGHTNESS sends in every mode is the spec's own choice
D13, and that SET_ADDRESS works in Disabled its own choice D33; both err both ways (log 14). -/
def Obligations.ReaddressRedirectsLaterTransactions : Prop :=
  ∀ (s : State) (dev addr level : Byte), s.Inv → s.inputs.accepts = true → dev.toNat < s.params.n →
    0x70 ≤ addr.toNat → addr.toNat ≤ 0x77 →
    ∃ t, exec (.setAddress dev addr) s = .next t ∧ t.events = s.events ∧
      exec (.setBrightness true dev level) t =
        .next { t with events := s.events ++ txn addr (encBrightness level) } ∧
      (s.mode = .ready → exec (.flush true dev) t =
        .next { t with events := s.events ++ txn addr (encFrame (slice s dev.toNat)) }) ∧
      ∀ d bs, d ≠ dev.toNat → txnFor t d bs = txnFor s d bs

/-! ### FrameBuffer -/

/-- R62. The flat index is the device's and the column's three bits side by side. -/
def Obligations.FlatIndexConcatenatesDeviceAndColumn : Prop :=
  (∀ d c : Nat, fbIndex d c = d * 8 + c) ∧
  ∀ d c : BitVec 3, fbIndex d.toNat c.toNat = (d ++ c).toNat

/-- R133. CLEAR zeroes every word of its target devices and nothing else; where the buffer is not usable or
the device does not exist, it changes nothing. -/
def Obligations.ClearZeroesExactlyItsTargets : Prop :=
  ∀ (s : State) (dsel : Bool) (dev : Byte), s.Inv →
    (s.mode = .ready → ∃ m, exec (.clear dsel dev) s = .next { s with fb := m } ∧
      ∀ i, memRead { s with fb := m } i =
        if i < 8 * s.params.n ∧ (dsel = false ∨ i / 8 = dev.toNat) then 0#16 else memRead s i) ∧
    (s.mode ≠ .ready → exec (.clear dsel dev) s = .next s) ∧
    (dsel = true → s.params.n ≤ dev.toNat → exec (.clear dsel dev) s = .next s)

/-- R134. SET_LED writes one bit of one word when the LED is in range, and otherwise changes nothing. -/
def Obligations.SetLedWritesExactlyOneBit : Prop :=
  ∀ (s : State) (dsel : Bool) (dev : Byte) (state : Bool) (row col : Byte), s.Inv →
    let d := if dsel = true then dev.toNat else 0
    (LedInRange s d row.toNat col.toNat →
      ∃ m, exec (.setLed dsel dev state row col) s = .next { s with fb := m } ∧
        ∀ i r, (memRead { s with fb := m } i).getLsbD r =
          if i = d * 8 + col.toNat ∧ r = row.toNat then state else (memRead s i).getLsbD r) ∧
    (¬ LedInRange s d row.toNat col.toNat → exec (.setLed dsel dev state row col) s = .next s)

/-- R135. GET_LED answers the LED's bit, or 0 out of range, and changes no other state. -/
def Obligations.GetLedAnswersTheBit : Prop :=
  ∀ (s : State) (dsel : Bool) (dev row col : Byte),
    let d := if dsel = true then dev.toNat else 0
    (LedInRange s d row.toNat col.toNat →
      let v := (memRead s (d * 8 + col.toNat)).getLsbD row.toNat
      exec (.getLed dsel dev row col) s =
        .next { s with response := some v, responses := s.responses ++ [v] }) ∧
    (¬ LedInRange s d row.toNat col.toNat →
      exec (.getLed dsel dev row col) s =
        .next { s with response := some false, responses := s.responses ++ [false] })

/-- The source's first property (95_test_vectors.md S3): what SET_LED writes GET_LED answers, by either
form of the device selector. -/
def Obligations.SetLedThenGetLedRoundTrips : Prop :=
  ∀ (s : State) (dsel : Bool) (dev : Byte) (state : Bool) (row col : Byte), s.Inv →
    LedInRange s (if dsel = true then dev.toNat else 0) row.toNat col.toNat →
    ∃ t u, exec (.setLed dsel dev state row col) s = .next t ∧
      exec (.getLed dsel dev row col) t = .next u ∧ u.response = some state

/-- R131. The omitted selector of SET_LED and GET_LED is device 0, whatever DEV holds and for every `N`. -/
def Obligations.OmittedLedDeviceIsDeviceZero : Prop :=
  ∀ (s : State) (dev : Byte) (state : Bool) (row col : Byte),
    exec (.setLed false dev state row col) s = exec (.setLed true 0#8 state row col) s ∧
    exec (.getLed false dev row col) s = exec (.getLed true 0#8 row col) s

/-- Lowering a capacity keeps the bits above it: GET_LED reads them as 0, SET_LED cannot reach them, and
FLUSH still sends them (R247, R136). -/
def Obligations.CapacityShrinkKeepsHiddenBits : Prop :=
  ∀ (s : State) (dev rows row col : Byte) (state : Bool), s.Inv → s.mode = .ready →
    s.inputs.accepts = true → dev.toNat < s.params.n →
    (rows.toNat = 8 ∨ rows.toNat = 12 ∨ rows.toNat = 16) → rows.toNat ≤ row.toNat →
    ∃ t, exec (.setRowCapacity dev rows) s = .next t ∧ (∀ i, memRead t i = memRead s i) ∧
      exec (.getLed true dev row col) t =
        .next { t with response := some false, responses := t.responses ++ [false] } ∧
      exec (.setLed true dev state row col) t = .next t ∧
      exec (.flush true dev) t =
        .next { t with events := t.events ++ txn (s.busAddr dev.toNat) (encFrame (slice s dev.toNat)) }

/-! ### The serializer -/

/-- R86. The bytes of a frame message, by their positions. -/
def Obligations.FrameBytesFollowLayout : Prop :=
  ∀ w : List Word, w.length = 8 →
    (encFrame w).length = 17 ∧ (encFrame w)[0]? = some 0x00#8 ∧
    ∀ c, c < 8 → ∃ x, w[c]? = some x ∧
      (encFrame w)[1 + 2 * c]? = some (x.extractLsb' 0 8) ∧
      (encFrame w)[2 + 2 * c]? = some (x.extractLsb' 8 8)

/-- R153. The dimming byte is `0xE` above the level's low four bits, so no other bit of the level can be
seen. -/
def Obligations.DimmingUsesLowFourBits : Prop :=
  (∀ level : Byte, encBrightness level = [0xE#4 ++ level.extractLsb' 0 4]) ∧
  ∀ (s : State) (dsel : Bool) (dev level level' : Byte), level.toNat % 16 = level'.toNat % 16 →
    exec (.setBrightness dsel dev level) s = exec (.setBrightness dsel dev level') s

/-- Each wire row sends exactly the bytes it encodes to, as one transaction to the selected device, and
nothing for a device that does not exist. Running a wire row by itself is the model's choice (log 7), and so
is the selection of its device by `selDev`, with no device at or above `N` (log 8). -/
def Obligations.WireRowsSendTheirEncodedBytes : Prop :=
  ∀ (i : Instr) (bytes : List Byte) (s : State), i.wellFormed = true → encode i = .wire bytes → s.Inv →
    (s.inputs.accepts = true → s.inputs.selDev < s.params.n →
      exec i s = .next { s with events := s.events ++ txn (s.busAddr s.inputs.selDev) bytes }) ∧
    (s.params.n ≤ s.inputs.selDev → exec i s = .next s)

/-! ### DeviceController -/

/-- INIT by mode and allocation (R182, R183, R184). That a second INIT answers a next state, and the list of
reasons, are the model's choice (log 6). One transaction per message is the spec's own choice D8, and that a
failed allocation sends nothing its own choice D9; both err both ways (log 14). -/
def Obligations.InitByModeAndAllocation : Prop :=
  ∀ s : State, s.Inv →
    (s.mode = .uninitialized → s.inputs.allocOk = true → s.inputs.accepts = true →
      ∃ m, exec .init s = .next { s with
          mode := .ready, alloc := .allocated, fb := m,
          events := s.events ++ (List.range s.params.n).flatMap (fun d =>
            txn (s.busAddr d) [0x21#8] ++ txn (s.busAddr d) [0x81#8] ++
            txn (s.busAddr d) [0xE#4 ++ s.params.defaultBrightness] ++
            txn (s.busAddr d) (0x00#8 :: List.replicate 16 0x00#8)) } ∧
        ∀ i, i < 8 * s.params.n → memRead { s with alloc := .allocated, fb := m } i = 0#16) ∧
    (s.mode = .uninitialized → s.inputs.allocOk = false →
      exec .init s = .next { s with mode := .disabled }) ∧
    (s.mode ≠ .uninitialized →
      exec .init s = .next { s with refused := true, refusals := s.refusals ++ [.reInit] })

/-- SET_BRIGHTNESS sends one dimming transaction to each target in ascending order, in every mode, and
changes nothing else (R185). "In every mode" is the spec's own choice D13 and the ascending order its own
choice D14 (R156); both err both ways (log 14). -/
def Obligations.SetBrightnessSendsToEachTarget : Prop :=
  ∀ (s : State) (dsel : Bool) (dev level : Byte), s.addr.length = s.params.n → s.inputs.accepts = true →
    let ts := if dsel = true then (if dev.toNat < s.params.n then [dev.toNat] else [])
      else List.range s.params.n
    exec (.setBrightness dsel dev level) s = .next { s with
      events := s.events ++ ts.flatMap (fun d => txn (s.busAddr d) [0xE#4 ++ level.extractLsb' 0 4]) }

/-- FLUSH in Ready sends each target's slice as one frame in ascending order; in the other modes it sends
nothing; it changes no other state (R186). That it sends nothing in Uninitialized is the spec's own choice
D12 (R75), which errs both ways (log 14). -/
def Obligations.FlushSendsEachTargetSlice : Prop :=
  ∀ (s : State) (dsel : Bool) (dev : Byte), s.addr.length = s.params.n →
    let ts := if dsel = true then (if dev.toNat < s.params.n then [dev.toNat] else [])
      else List.range s.params.n
    (s.mode = .ready → s.inputs.accepts = true →
      exec (.flush dsel dev) s = .next { s with
        events := s.events ++ ts.flatMap (fun d => txn (s.busAddr d)
          (encFrame ((List.range 8).map fun c => memRead s (d * 8 + c)))) }) ∧
    (s.mode ≠ .ready → exec (.flush dsel dev) s = .next s)

/-- Two FLUSHes with nothing between them emit the same events (R68). -/
def Obligations.RepeatedFlushIsIdentical : Prop :=
  ∀ (s t : State) (dsel : Bool) (dev : Byte), exec (.flush dsel dev) s = .next t →
    ∃ es, t = { s with events := s.events ++ es } ∧
      exec (.flush dsel dev) t = .next { t with events := t.events ++ es }

/-- R159. What FLUSH sends does not depend on the row capacities. -/
def Obligations.FlushIgnoresRowCapacity : Prop :=
  ∀ (s : State) (rows : List (BitVec 5)) (dsel : Bool) (dev : Byte), s.inputs.accepts = true →
    ∃ es, exec (.flush dsel dev) s = .next { s with events := s.events ++ es } ∧
      exec (.flush dsel dev) { s with rows := rows } =
        .next { s with rows := rows, events := s.events ++ es }

/-- A FLUSH of one device reads that device's address and slice, and nothing else of the tables and the
buffer (R157, R158). -/
def Obligations.FlushReadsOnlyItsDevice : Prop :=
  ∀ (s s' : State) (dev : Byte), s.params.n = s'.params.n → s.mode = s'.mode →
    s.inputs.accepts = true → s'.inputs.accepts = true → s.addr[dev.toNat]? = s'.addr[dev.toNat]? →
    (∀ c, c < 8 → memRead s (dev.toNat * 8 + c) = memRead s' (dev.toNat * 8 + c)) →
    ∃ es, exec (.flush true dev) s = .next { s with events := s.events ++ es } ∧
      exec (.flush true dev) s' = .next { s' with events := s'.events ++ es }

/-- A broadcast is its devices' commands one after the other in ascending order (R156, R71): CLEAR,
SET_BRIGHTNESS and FLUSH. For SET_BRIGHTNESS the ascending order is the spec's own choice D14, which errs both
ways (log 14); for FLUSH it is the source's. -/
def Obligations.BroadcastIsAscendingSequence : Prop :=
  ∀ (s : State) (dev level : Byte), s.Inv → s.inputs.accepts = true →
    let each := fun f : Byte → Instr =>
      (List.range s.params.n).foldl (fun o d => andThen o (exec (f (BitVec.ofNat 8 d)))) (.next s)
    exec (.clear false dev) s = each (fun d => .clear true d) ∧
    exec (.setBrightness false dev level) s = each (fun d => .setBrightness true d level) ∧
    exec (.flush false dev) s = each (fun d => .flush true d)

/-- The transactions, bytes and events of each command, with `T` the size of the target set (R254). The sizes
of INIT rest on the spec's own choices D8 (one transaction per message) and D9 (nothing sent when the
allocation fails), that of SET_BRIGHTNESS in every mode on D13, that of FLUSH in Uninitialized on D12; all of
them err both ways (log 14). -/
def Obligations.OutputSizePerCommand : Prop :=
  ∀ (s : State) (dsel : Bool) (dev a b : Byte) (state : Bool), s.Inv → s.inputs.accepts = true →
    let n := s.params.n
    let T := if dsel = true then (if dev.toNat < n then 1 else 0) else n
    let size := fun (i : Instr) (k : Nat × Nat × Nat) =>
      ∃ t es, exec i s = .next t ∧ t.events = s.events ++ es ∧ outputSize es = k
    (s.mode = .uninitialized → s.inputs.allocOk = true → size .init (4 * n, 20 * n, 28 * n)) ∧
    (s.mode = .uninitialized → s.inputs.allocOk = false → size .init (0, 0, 0)) ∧
    size (.setBrightness dsel dev a) (T, T, 3 * T) ∧
    (s.mode = .ready → size (.flush dsel dev) (T, 17 * T, 19 * T)) ∧
    (s.mode ≠ .ready → size (.flush dsel dev) (0, 0, 0)) ∧
    size (.clear dsel dev) (0, 0, 0) ∧ size (.setLed dsel dev state a b) (0, 0, 0) ∧
    size (.getLed dsel dev a b) (0, 0, 0) ∧ size (.setAddress dev a) (0, 0, 0) ∧
    size (.setRowCapacity dev a) (0, 0, 0)

/-- Before INIT the buffer commands change nothing and answer 0, FLUSH sends nothing, and INIT then zeroes the
whole buffer (R252, an inference the spec marks as its own). That the buffer commands and FLUSH are without
effect in Uninitialized is the spec's own choice D12 (R75, R186, R220), which errs both ways (log 14). -/
def Obligations.PreInitWritesAreLost : Prop :=
  ∀ (s : State) (dsel : Bool) (dev row col : Byte) (state : Bool), s.Inv → s.mode = .uninitialized →
    exec (.setLed dsel dev state row col) s = .next s ∧ exec (.clear dsel dev) s = .next s ∧
    exec (.getLed dsel dev row col) s =
      .next { s with response := some false, responses := s.responses ++ [false] } ∧
    exec (.flush dsel dev) s = .next s ∧
    (s.inputs.allocOk = true → s.inputs.accepts = true →
      ∃ t, exec .init s = .next t ∧ t.mode = .ready ∧
        ∀ i, i < 8 * s.params.n → fbExists t i = true ∧ memRead t i = 0#16)

/-! ### Assembler -/

/-- Every word the assembler gives decodes to the instruction its line stands for (R97). -/
def Obligations.AssembledWordsDecode : Prop :=
  ∀ (l : Assembler.Line) (codes : List Code), Assembler.assemble l = some codes →
    ∃ is, Assembler.instrs l = some is ∧ codes.map decode = is.map Except.ok

/-- R98. The pseudo-commands are their expansions. -/
def Obligations.PseudoCommandsExpand : Prop :=
  (∀ d row col, Assembler.assemble (.ledOn d row col) = Assembler.assemble (.setLed d row col 1)) ∧
  (∀ d row col, Assembler.assemble (.ledOff d row col) = Assembler.assemble (.setLed d row col 0)) ∧
  Assembler.assemble .clearAll = Assembler.assemble (.clear none) ∧
  Assembler.assemble .flushAll = Assembler.assemble (.flush none) ∧
  (∀ d row col s ws vs, Assembler.assemble (.setLed (some d) row col s) = some ws →
    Assembler.assemble (.flush (some d)) = some vs →
    Assembler.assemble (.updateLed d row col s) = some (ws ++ vs))
end

