-- ==== Sys2Proof/Laws/State.lean ====
section
/-! SUPPORT. One lemma per field per update of State, so that no later proof unfolds a record update. -/

namespace Sys2Proof.Machine

/-! ### `respond` -/

@[simp] theorem respond_params (v : Bool) (s : State) : (respond v s).params = s.params := rfl
@[simp] theorem respond_mode (v : Bool) (s : State) : (respond v s).mode = s.mode := rfl
@[simp] theorem respond_addr (v : Bool) (s : State) : (respond v s).addr = s.addr := rfl
@[simp] theorem respond_rows (v : Bool) (s : State) : (respond v s).rows = s.rows := rfl
@[simp] theorem respond_alloc (v : Bool) (s : State) : (respond v s).alloc = s.alloc := rfl
@[simp] theorem respond_fb (v : Bool) (s : State) : (respond v s).fb = s.fb := rfl
@[simp] theorem respond_refused (v : Bool) (s : State) : (respond v s).refused = s.refused := rfl
@[simp] theorem respond_refusals (v : Bool) (s : State) : (respond v s).refusals = s.refusals := rfl
@[simp] theorem respond_events (v : Bool) (s : State) : (respond v s).events = s.events := rfl
@[simp] theorem respond_response (v : Bool) (s : State) : (respond v s).response = some v := rfl
@[simp] theorem respond_responses (v : Bool) (s : State) : (respond v s).responses = s.responses ++ [v] := rfl
@[simp] theorem respond_pending (v : Bool) (s : State) : (respond v s).pending = s.pending := rfl
@[simp] theorem respond_pos (v : Bool) (s : State) : (respond v s).pos = s.pos := rfl
@[simp] theorem respond_inputs (v : Bool) (s : State) : (respond v s).inputs = s.inputs := rfl

/-! ### `refuse` -/

@[simp] theorem refuse_params (r : RefuseReason) (s : State) : (refuse r s).params = s.params := rfl
@[simp] theorem refuse_mode (r : RefuseReason) (s : State) : (refuse r s).mode = s.mode := rfl
@[simp] theorem refuse_addr (r : RefuseReason) (s : State) : (refuse r s).addr = s.addr := rfl
@[simp] theorem refuse_rows (r : RefuseReason) (s : State) : (refuse r s).rows = s.rows := rfl
@[simp] theorem refuse_alloc (r : RefuseReason) (s : State) : (refuse r s).alloc = s.alloc := rfl
@[simp] theorem refuse_fb (r : RefuseReason) (s : State) : (refuse r s).fb = s.fb := rfl
@[simp] theorem refuse_refused (r : RefuseReason) (s : State) : (refuse r s).refused = true := rfl
@[simp] theorem refuse_refusals (r : RefuseReason) (s : State) : (refuse r s).refusals = s.refusals ++ [r] := rfl
@[simp] theorem refuse_events (r : RefuseReason) (s : State) : (refuse r s).events = s.events := rfl
@[simp] theorem refuse_response (r : RefuseReason) (s : State) : (refuse r s).response = s.response := rfl
@[simp] theorem refuse_responses (r : RefuseReason) (s : State) : (refuse r s).responses = s.responses := rfl
@[simp] theorem refuse_pending (r : RefuseReason) (s : State) : (refuse r s).pending = s.pending := rfl
@[simp] theorem refuse_pos (r : RefuseReason) (s : State) : (refuse r s).pos = s.pos := rfl
@[simp] theorem refuse_inputs (r : RefuseReason) (s : State) : (refuse r s).inputs = s.inputs := rfl

/-! ### `accept` -/

@[simp] theorem accept_params (r : Request) (rest : List Request) (s : State) : (accept r rest s).params = s.params := rfl
@[simp] theorem accept_mode (r : Request) (rest : List Request) (s : State) : (accept r rest s).mode = s.mode := rfl
@[simp] theorem accept_addr (r : Request) (rest : List Request) (s : State) : (accept r rest s).addr = s.addr := rfl
@[simp] theorem accept_rows (r : Request) (rest : List Request) (s : State) : (accept r rest s).rows = s.rows := rfl
@[simp] theorem accept_alloc (r : Request) (rest : List Request) (s : State) : (accept r rest s).alloc = s.alloc := rfl
@[simp] theorem accept_fb (r : Request) (rest : List Request) (s : State) : (accept r rest s).fb = s.fb := rfl
@[simp] theorem accept_refused (r : Request) (rest : List Request) (s : State) : (accept r rest s).refused = s.refused := rfl
@[simp] theorem accept_refusals (r : Request) (rest : List Request) (s : State) : (accept r rest s).refusals = s.refusals := rfl
@[simp] theorem accept_events (r : Request) (rest : List Request) (s : State) : (accept r rest s).events = s.events := rfl
@[simp] theorem accept_response (r : Request) (rest : List Request) (s : State) : (accept r rest s).response = none := rfl
@[simp] theorem accept_responses (r : Request) (rest : List Request) (s : State) : (accept r rest s).responses = s.responses := rfl
@[simp] theorem accept_pending (r : Request) (rest : List Request) (s : State) : (accept r rest s).pending = rest := rfl
@[simp] theorem accept_pos (r : Request) (rest : List Request) (s : State) : (accept r rest s).pos = s.pos + 1 := rfl
@[simp] theorem accept_inputs (r : Request) (rest : List Request) (s : State) : (accept r rest s).inputs = r.inputs := rfl

/-! ### `allocate` -/

@[simp] theorem allocate_params (s : State) : (allocate s).params = s.params := rfl
@[simp] theorem allocate_mode (s : State) : (allocate s).mode = .ready := rfl
@[simp] theorem allocate_addr (s : State) : (allocate s).addr = s.addr := rfl
@[simp] theorem allocate_rows (s : State) : (allocate s).rows = s.rows := rfl
@[simp] theorem allocate_alloc (s : State) : (allocate s).alloc = .allocated := rfl
@[simp] theorem allocate_fb (s : State) : (allocate s).fb = [] := rfl
@[simp] theorem allocate_refused (s : State) : (allocate s).refused = s.refused := rfl
@[simp] theorem allocate_refusals (s : State) : (allocate s).refusals = s.refusals := rfl
@[simp] theorem allocate_events (s : State) : (allocate s).events = s.events := rfl
@[simp] theorem allocate_response (s : State) : (allocate s).response = s.response := rfl
@[simp] theorem allocate_responses (s : State) : (allocate s).responses = s.responses := rfl
@[simp] theorem allocate_pending (s : State) : (allocate s).pending = s.pending := rfl
@[simp] theorem allocate_pos (s : State) : (allocate s).pos = s.pos := rfl
@[simp] theorem allocate_inputs (s : State) : (allocate s).inputs = s.inputs := rfl

/-! ### `memWrite`: only the frame buffer changes -/

@[simp] theorem memWrite_params (s : State) (i : Nat) (v : Word) : (memWrite s i v).params = s.params := rfl
@[simp] theorem memWrite_mode (s : State) (i : Nat) (v : Word) : (memWrite s i v).mode = s.mode := rfl
@[simp] theorem memWrite_addr (s : State) (i : Nat) (v : Word) : (memWrite s i v).addr = s.addr := rfl
@[simp] theorem memWrite_rows (s : State) (i : Nat) (v : Word) : (memWrite s i v).rows = s.rows := rfl
@[simp] theorem memWrite_alloc (s : State) (i : Nat) (v : Word) : (memWrite s i v).alloc = s.alloc := rfl
@[simp] theorem memWrite_refused (s : State) (i : Nat) (v : Word) : (memWrite s i v).refused = s.refused := rfl
@[simp] theorem memWrite_refusals (s : State) (i : Nat) (v : Word) : (memWrite s i v).refusals = s.refusals := rfl
@[simp] theorem memWrite_events (s : State) (i : Nat) (v : Word) : (memWrite s i v).events = s.events := rfl
@[simp] theorem memWrite_response (s : State) (i : Nat) (v : Word) : (memWrite s i v).response = s.response := rfl
@[simp] theorem memWrite_responses (s : State) (i : Nat) (v : Word) : (memWrite s i v).responses = s.responses := rfl
@[simp] theorem memWrite_pending (s : State) (i : Nat) (v : Word) : (memWrite s i v).pending = s.pending := rfl
@[simp] theorem memWrite_pos (s : State) (i : Nat) (v : Word) : (memWrite s i v).pos = s.pos := rfl
@[simp] theorem memWrite_inputs (s : State) (i : Nat) (v : Word) : (memWrite s i v).inputs = s.inputs := rfl
@[simp] theorem memWrite_fb (s : State) (i : Nat) (v : Word) :
    (memWrite s i v).fb = if fbExists s i then s.fb.write i v else s.fb := rfl

/-- A state that differs from another in the frame buffer's words only. -/
def SameButFb (s t : State) : Prop := t = { s with fb := t.fb }

theorem SameButFb.refl (s : State) : SameButFb s s := rfl

theorem SameButFb.trans {s t u : State} (h : SameButFb s t) (k : SameButFb t u) : SameButFb s u := by
  unfold SameButFb at h k ⊢
  rw [k, h]

theorem memWrite_sameButFb (s : State) (i : Nat) (v : Word) : SameButFb s (memWrite s i v) := rfl

/-! ### The initial state (R240) -/

@[simp] theorem initial_params (p : Params) : (State.initial p).params = p := rfl
@[simp] theorem initial_mode (p : Params) : (State.initial p).mode = .uninitialized := rfl
@[simp] theorem initial_addr (p : Params) : (State.initial p).addr = defaultAddr p.n := rfl
@[simp] theorem initial_rows (p : Params) : (State.initial p).rows = defaultRows p.n := rfl
@[simp] theorem initial_alloc (p : Params) : (State.initial p).alloc = .unallocated := rfl
@[simp] theorem initial_fb (p : Params) : (State.initial p).fb = [] := rfl
@[simp] theorem initial_refused (p : Params) : (State.initial p).refused = false := rfl
@[simp] theorem initial_refusals (p : Params) : (State.initial p).refusals = [] := rfl
@[simp] theorem initial_events (p : Params) : (State.initial p).events = [] := rfl
@[simp] theorem initial_response (p : Params) : (State.initial p).response = none := rfl
@[simp] theorem initial_responses (p : Params) : (State.initial p).responses = [] := rfl
@[simp] theorem initial_pending (p : Params) : (State.initial p).pending = [] := rfl
@[simp] theorem initial_pos (p : Params) : (State.initial p).pos = 0 := rfl
@[simp] theorem initial_inputs (p : Params) : (State.initial p).inputs = .atReset := rfl

end Sys2Proof.Machine
end

