-- ==== Sys2Proof/Laws/Memory.lean ====
section
/-! SUPPORT. The laws of the frame-buffer memory: read after write, and that every operation keeps the
canonical form and the index range. -/

namespace Sys2Proof.Machine

@[simp] theorem Memory.read_nil (i : Nat) : Memory.read [] i = 0#16 := rfl

/-- An index below every listed one reads as unlisted. -/
theorem Memory.read_below {m : Memory} {i : Nat} (h : ∀ c ∈ m, i < c.1) : Memory.read m i = 0#16 := by
  induction m with
  | nil => rfl
  | cons c m ih =>
    have hc : i < c.1 := h c (by simp)
    have hm : ∀ c ∈ m, i < c.1 := fun x hx => h x (by simp [hx])
    simp [Memory.read, ih hm, Nat.ne_of_lt hc]

/-- A write leaves every other index alone. -/
theorem Memory.read_write_other (m : Memory) {i k : Nat} (v : Word) (h : k ≠ i) :
    (m.write i v).read k = m.read k := by
  induction m with
  | nil => unfold Memory.write; split <;> simp [Memory.read, h]
  | cons c m ih =>
    obtain ⟨j, x⟩ := c
    simp only [Memory.write]
    split
    · split <;> simp [Memory.read, h]
    · split
      · subst j
        split <;> simp [Memory.read, h]
      · simp [Memory.read, ih]

/-- A read after a write to the same index gives the value written. -/
theorem Memory.read_write_same {m : Memory} (hm : m.wf) (i : Nat) (v : Word) :
    (m.write i v).read i = v := by
  induction m with
  | nil => unfold Memory.write; split <;> simp_all [Memory.read]
  | cons c m ih =>
    obtain ⟨j, x⟩ := c
    have hlt : ∀ c ∈ m, j < c.1 := (List.pairwise_cons.mp hm.1).1
    have hwf : Memory.wf m := ⟨(List.pairwise_cons.mp hm.1).2, fun c hc => hm.2 c (by simp [hc])⟩
    simp only [Memory.write]
    split
    · rename_i hij
      split
      · rename_i hv
        subst hv
        apply Memory.read_below
        intro c hc
        rcases List.mem_cons.mp hc with rfl | hc
        · exact hij
        · exact Nat.lt_trans hij (hlt c hc)
      · simp [Memory.read]
    · split
      · subst j
        split
        · rename_i hv
          subst hv
          exact Memory.read_below hlt
        · simp [Memory.read]
      · rename_i hne
        simp [Memory.read, hne, ih hwf]

/-- What a write lists was listed before, or is the index written. -/
theorem Memory.mem_write {m : Memory} {i : Nat} {v : Word} {c : Nat × Word} (h : c ∈ m.write i v) :
    c ∈ m ∨ (c = (i, v) ∧ v ≠ 0#16) := by
  induction m with
  | nil =>
    unfold Memory.write at h
    split at h <;> simp_all
  | cons d m ih =>
    obtain ⟨j, x⟩ := d
    simp only [Memory.write] at h
    split at h
    · split at h <;> simp_all
      tauto
    · split at h
      · split at h <;> simp_all
        tauto
      · rcases List.mem_cons.mp h with rfl | h
        · simp
        · rcases ih h with h | h
          · simp [h]
          · exact .inr h

/-- A write keeps the canonical form. -/
theorem Memory.write_wf {m : Memory} (hm : m.wf) (i : Nat) (v : Word) : Memory.wf (m.write i v) := by
  refine ⟨?_, ?_⟩
  · induction m with
    | nil => unfold Memory.write; split <;> simp
    | cons c m ih =>
      obtain ⟨j, x⟩ := c
      have hlt : ∀ c ∈ m, j < c.1 := (List.pairwise_cons.mp hm.1).1
      have hp := (List.pairwise_cons.mp hm.1).2
      have hwf : Memory.wf m := ⟨hp, fun c hc => hm.2 c (by simp [hc])⟩
      simp only [Memory.write]
      split
      · rename_i hij
        split
        · exact hm.1
        · refine List.pairwise_cons.mpr ⟨?_, hm.1⟩
          intro c hc
          rcases List.mem_cons.mp hc with rfl | hc
          · exact hij
          · exact Nat.lt_trans hij (hlt c hc)
      · split
        · subst j
          split
          · exact hp
          · exact List.pairwise_cons.mpr ⟨hlt, hp⟩
        · refine List.pairwise_cons.mpr ⟨?_, ih hwf⟩
          intro c hc
          rcases Memory.mem_write hc with h | ⟨rfl, -⟩
          · exact hlt c h
          · simp; omega
  · intro c hc
    rcases Memory.mem_write hc with h | ⟨rfl, h⟩
    · exact hm.2 c h
    · exact h

/-- The read primitive after the write primitive (R61). -/
theorem memRead_memWrite {s : State} (hm : s.fb.wf) (i k : Nat) (v : Word) :
    memRead (memWrite s i v) k = if k = i ∧ fbExists s i then v else memRead s k := by
  have hex : fbExists (memWrite s i v) k = fbExists s k := rfl
  unfold memRead
  rw [hex, memWrite_fb]
  by_cases hi : fbExists s i
  · by_cases hk : k = i
    · subst hk; simp [hi, Memory.read_write_same hm]
    · simp [hi, hk, Memory.read_write_other _ _ hk]
  · simp [hi]

/-- The write primitive keeps the canonical form and the index range. -/
theorem memWrite_fb_keeps {s : State} (hm : s.fb.wf) (hd : ∀ c ∈ s.fb, c.1 < Config.cols * s.params.n)
    (i : Nat) (v : Word) :
    (memWrite s i v).fb.wf ∧ ∀ c ∈ (memWrite s i v).fb, c.1 < Config.cols * s.params.n := by
  rw [memWrite_fb]
  split
  · rename_i h
    refine ⟨Memory.write_wf hm i v, fun c hc => ?_⟩
    rcases Memory.mem_write hc with h' | ⟨rfl, -⟩
    · exact hd c h'
    · simp [fbExists] at h; exact h.2
  · exact ⟨hm, hd⟩

/-- `FBIndex` names each (device, column) pair once (R62, R63). -/
theorem fbIndex_inj {d c d' c' : Nat} (hc : c < Config.cols) (hc' : c' < Config.cols) :
    fbIndex d c = fbIndex d' c' ↔ d = d' ∧ c = c' := by
  unfold fbIndex Config.cols at *; omega

/-- A word of an existing device is in the buffer's range (R41, R62). -/
theorem fbIndex_lt {n d c : Nat} (hd : d < n) (hc : c < Config.cols) : fbIndex d c < Config.cols * n := by
  unfold fbIndex Config.cols at *; omega

/-! ### Writing zeros over a list of indices -/

theorem foldl_memWrite_sameButFb (f : Nat → Nat) (l : List Nat) (s : State) :
    SameButFb s (l.foldl (fun t c => memWrite t (f c) 0#16) s) := by
  induction l generalizing s with
  | nil => exact .refl s
  | cons c l ih => exact (memWrite_sameButFb s (f c) 0#16).trans (ih _)

/-- Clearing a device's slice changes the buffer only. -/
theorem clearSlice_sameButFb (s : State) (d : Nat) : SameButFb s (clearSlice s d) :=
  foldl_memWrite_sameButFb (fbIndex d) (List.range Config.cols) s

/-- Clearing the slices of some devices changes the buffer only. -/
theorem foldl_clearSlice_sameButFb (ds : List Nat) (s : State) :
    SameButFb s (ds.foldl clearSlice s) := by
  induction ds generalizing s with
  | nil => exact .refl s
  | cons d ds ih => rw [List.foldl_cons]; exact (clearSlice_sameButFb s d).trans (ih _)

/-! ### Clearing leaves every other field -/

theorem SameButFb.params {s t : State} (h : SameButFb s t) : t.params = s.params := by
  unfold SameButFb at h; rw [h]
theorem SameButFb.mode {s t : State} (h : SameButFb s t) : t.mode = s.mode := by
  unfold SameButFb at h; rw [h]
theorem SameButFb.addr {s t : State} (h : SameButFb s t) : t.addr = s.addr := by
  unfold SameButFb at h; rw [h]
theorem SameButFb.rows {s t : State} (h : SameButFb s t) : t.rows = s.rows := by
  unfold SameButFb at h; rw [h]
theorem SameButFb.alloc {s t : State} (h : SameButFb s t) : t.alloc = s.alloc := by
  unfold SameButFb at h; rw [h]
theorem SameButFb.refused {s t : State} (h : SameButFb s t) : t.refused = s.refused := by
  unfold SameButFb at h; rw [h]
theorem SameButFb.refusals {s t : State} (h : SameButFb s t) : t.refusals = s.refusals := by
  unfold SameButFb at h; rw [h]
theorem SameButFb.events {s t : State} (h : SameButFb s t) : t.events = s.events := by
  unfold SameButFb at h; rw [h]
theorem SameButFb.response {s t : State} (h : SameButFb s t) : t.response = s.response := by
  unfold SameButFb at h; rw [h]
theorem SameButFb.responses {s t : State} (h : SameButFb s t) : t.responses = s.responses := by
  unfold SameButFb at h; rw [h]
theorem SameButFb.pending {s t : State} (h : SameButFb s t) : t.pending = s.pending := by
  unfold SameButFb at h; rw [h]
theorem SameButFb.pos {s t : State} (h : SameButFb s t) : t.pos = s.pos := by
  unfold SameButFb at h; rw [h]
theorem SameButFb.inputs {s t : State} (h : SameButFb s t) : t.inputs = s.inputs := by
  unfold SameButFb at h; rw [h]

@[simp] theorem clearSlice_params (s : State) (d : Nat) : (clearSlice s d).params = s.params :=
  (clearSlice_sameButFb s d).params
@[simp] theorem clearSlice_mode (s : State) (d : Nat) : (clearSlice s d).mode = s.mode :=
  (clearSlice_sameButFb s d).mode
@[simp] theorem clearSlice_addr (s : State) (d : Nat) : (clearSlice s d).addr = s.addr :=
  (clearSlice_sameButFb s d).addr
@[simp] theorem clearSlice_rows (s : State) (d : Nat) : (clearSlice s d).rows = s.rows :=
  (clearSlice_sameButFb s d).rows
@[simp] theorem clearSlice_alloc (s : State) (d : Nat) : (clearSlice s d).alloc = s.alloc :=
  (clearSlice_sameButFb s d).alloc
@[simp] theorem clearSlice_refused (s : State) (d : Nat) : (clearSlice s d).refused = s.refused :=
  (clearSlice_sameButFb s d).refused
@[simp] theorem clearSlice_refusals (s : State) (d : Nat) : (clearSlice s d).refusals = s.refusals :=
  (clearSlice_sameButFb s d).refusals
@[simp] theorem clearSlice_events (s : State) (d : Nat) : (clearSlice s d).events = s.events :=
  (clearSlice_sameButFb s d).events
@[simp] theorem clearSlice_response (s : State) (d : Nat) : (clearSlice s d).response = s.response :=
  (clearSlice_sameButFb s d).response
@[simp] theorem clearSlice_responses (s : State) (d : Nat) : (clearSlice s d).responses = s.responses :=
  (clearSlice_sameButFb s d).responses
@[simp] theorem clearSlice_pending (s : State) (d : Nat) : (clearSlice s d).pending = s.pending :=
  (clearSlice_sameButFb s d).pending
@[simp] theorem clearSlice_pos (s : State) (d : Nat) : (clearSlice s d).pos = s.pos :=
  (clearSlice_sameButFb s d).pos
@[simp] theorem clearSlice_inputs (s : State) (d : Nat) : (clearSlice s d).inputs = s.inputs :=
  (clearSlice_sameButFb s d).inputs

@[simp] theorem foldl_clearSlice_params (ds : List Nat) (s : State) :
    (ds.foldl clearSlice s).params = s.params :=
  (foldl_clearSlice_sameButFb ds s).params
@[simp] theorem foldl_clearSlice_mode (ds : List Nat) (s : State) :
    (ds.foldl clearSlice s).mode = s.mode :=
  (foldl_clearSlice_sameButFb ds s).mode
@[simp] theorem foldl_clearSlice_addr (ds : List Nat) (s : State) :
    (ds.foldl clearSlice s).addr = s.addr :=
  (foldl_clearSlice_sameButFb ds s).addr
@[simp] theorem foldl_clearSlice_rows (ds : List Nat) (s : State) :
    (ds.foldl clearSlice s).rows = s.rows :=
  (foldl_clearSlice_sameButFb ds s).rows
@[simp] theorem foldl_clearSlice_alloc (ds : List Nat) (s : State) :
    (ds.foldl clearSlice s).alloc = s.alloc :=
  (foldl_clearSlice_sameButFb ds s).alloc
@[simp] theorem foldl_clearSlice_refused (ds : List Nat) (s : State) :
    (ds.foldl clearSlice s).refused = s.refused :=
  (foldl_clearSlice_sameButFb ds s).refused
@[simp] theorem foldl_clearSlice_refusals (ds : List Nat) (s : State) :
    (ds.foldl clearSlice s).refusals = s.refusals :=
  (foldl_clearSlice_sameButFb ds s).refusals
@[simp] theorem foldl_clearSlice_events (ds : List Nat) (s : State) :
    (ds.foldl clearSlice s).events = s.events :=
  (foldl_clearSlice_sameButFb ds s).events
@[simp] theorem foldl_clearSlice_response (ds : List Nat) (s : State) :
    (ds.foldl clearSlice s).response = s.response :=
  (foldl_clearSlice_sameButFb ds s).response
@[simp] theorem foldl_clearSlice_responses (ds : List Nat) (s : State) :
    (ds.foldl clearSlice s).responses = s.responses :=
  (foldl_clearSlice_sameButFb ds s).responses
@[simp] theorem foldl_clearSlice_pending (ds : List Nat) (s : State) :
    (ds.foldl clearSlice s).pending = s.pending :=
  (foldl_clearSlice_sameButFb ds s).pending
@[simp] theorem foldl_clearSlice_pos (ds : List Nat) (s : State) :
    (ds.foldl clearSlice s).pos = s.pos :=
  (foldl_clearSlice_sameButFb ds s).pos
@[simp] theorem foldl_clearSlice_inputs (ds : List Nat) (s : State) :
    (ds.foldl clearSlice s).inputs = s.inputs :=
  (foldl_clearSlice_sameButFb ds s).inputs

/-- What a run of zero writes leaves: 0 at each index written, the rest as it was. -/
theorem foldl_memWrite_zero (s : State) (hm : s.fb.wf) (f : Nat → Nat) (l : List Nat) :
    let t := l.foldl (fun t c => memWrite t (f c) 0#16) s
    t.fb.wf ∧ (∀ k, memRead t k = if k ∈ l.map f then 0#16 else memRead s k) := by
  induction l generalizing s with
  | nil => exact ⟨hm, by simp⟩
  | cons c l ih =>
    have hw : (memWrite s (f c) 0#16).fb.wf := by
      rw [memWrite_fb]; split
      · exact Memory.write_wf hm _ _
      · exact hm
    obtain ⟨h2, h3⟩ := ih (memWrite s (f c) 0#16) hw
    refine ⟨h2, fun k => ?_⟩
    have := h3 k
    simp only [List.foldl_cons] at this ⊢
    rw [this, memRead_memWrite hm]
    by_cases hk : k ∈ l.map f
    · have : k ∈ (c :: l).map f := by simp only [List.map_cons, List.mem_cons]; exact .inr hk
      rw [if_pos hk, if_pos this]
    · by_cases hkc : k = f c
      · subst hkc
        have hin : f c ∈ (c :: l).map f := by simp
        rw [if_neg hk, if_pos hin]
        by_cases hx : fbExists s (f c)
        · simp [hx]
        · simp [hx, memRead]
      · have : k ∉ (c :: l).map f := by
          simp only [List.map_cons, List.mem_cons, not_or]; exact ⟨hkc, hk⟩
        rw [if_neg hk, if_neg this, if_neg (fun h => hkc h.1)]

theorem foldl_memWrite_zero_domain (s : State) (f : Nat → Nat) (l : List Nat) (hm : s.fb.wf)
    (hd : ∀ c ∈ s.fb, c.1 < Config.cols * s.params.n) :
    ∀ c ∈ (l.foldl (fun t c => memWrite t (f c) 0#16) s).fb, c.1 < Config.cols * s.params.n := by
  induction l generalizing s with
  | nil => exact hd
  | cons c l ih =>
    have h := memWrite_fb_keeps hm hd (f c) 0#16
    simpa using ih (memWrite s (f c) 0#16) h.1 (by simpa using h.2)

/-- `clearSlice` zeroes the words of one device and nothing else (R133, R183). -/
theorem clearSlice_spec (s : State) (hm : s.fb.wf) (d : Nat) :
    (clearSlice s d).fb.wf ∧
      ∀ d' c, c < Config.cols →
        memRead (clearSlice s d) (fbIndex d' c) = if d' = d then 0#16 else memRead s (fbIndex d' c) := by
  obtain ⟨h2, h3⟩ := foldl_memWrite_zero s hm (fbIndex d) (List.range Config.cols)
  refine ⟨h2, fun d' c hc => ?_⟩
  have := h3 (fbIndex d' c)
  simp only [clearSlice]
  rw [this]
  have hiff : fbIndex d' c ∈ (List.range Config.cols).map (fbIndex d) ↔ d' = d := by
    simp only [List.mem_map, List.mem_range]
    constructor
    · rintro ⟨a, ha, h⟩
      exact ((fbIndex_inj ha hc).mp h).1.symm
    · rintro rfl
      exact ⟨c, hc, rfl⟩
  simp only [hiff]

theorem clearSlice_domain (s : State) (hm : s.fb.wf) (hd : ∀ c ∈ s.fb, c.1 < Config.cols * s.params.n)
    (d : Nat) : ∀ c ∈ (clearSlice s d).fb, c.1 < Config.cols * s.params.n :=
  foldl_memWrite_zero_domain s (fbIndex d) (List.range Config.cols) hm hd

/-- `clearSlice` over a list of devices zeroes their words and nothing else (R133). -/
theorem foldl_clearSlice_spec (s : State) (hm : s.fb.wf) (ds : List Nat) :
    (ds.foldl clearSlice s).fb.wf ∧
      ∀ d c, c < Config.cols →
        memRead (ds.foldl clearSlice s) (fbIndex d c) =
          if d ∈ ds then 0#16 else memRead s (fbIndex d c) := by
  induction ds generalizing s with
  | nil => exact ⟨hm, by simp⟩
  | cons e ds ih =>
    obtain ⟨h2, h3⟩ := clearSlice_spec s hm e
    obtain ⟨k2, k3⟩ := ih (clearSlice s e) h2
    rw [List.foldl_cons]
    refine ⟨k2, fun d c hc => ?_⟩
    rw [k3 d c hc, h3 d c hc]
    by_cases hd : d = e <;> simp [hd]

theorem foldl_clearSlice_domain (s : State) (hm : s.fb.wf)
    (hd : ∀ c ∈ s.fb, c.1 < Config.cols * s.params.n) (ds : List Nat) :
    ∀ c ∈ (ds.foldl clearSlice s).fb, c.1 < Config.cols * s.params.n := by
  induction ds generalizing s with
  | nil => exact hd
  | cons e ds ih =>
    obtain ⟨h2, -⟩ := clearSlice_spec s hm e
    have hp : (clearSlice s e).params = s.params := by rw [clearSlice_sameButFb s e]
    rw [List.foldl_cons, ← hp]
    exact ih (clearSlice s e) h2 (by rw [hp]; exact clearSlice_domain s hm hd e)

end Sys2Proof.Machine
end

