-- ==== Sys2Proof/Laws/Ports.lean ====
section
/-! SUPPORT. The laws of the transport port: what `emit` can do, the shape and size of transactions, and
that what the multiplexer sends is framed. -/

namespace Sys2Proof.Machine

/-! ### `emit` -/

@[simp] theorem emit_nil (s : State) : emit [] s = .next s := rfl

/-- With an accepting transport, `emit` appends the events and changes nothing else. -/
theorem emit_accepts {s : State} (h : s.inputs.accepts = true) (es : List Event) :
    emit es s = .next { s with events := s.events ++ es } := by
  cases es <;> simp [emit, h]

/-- With a transport that does not accept, `emit` of an event is stuck (R250). -/
theorem emit_stuck {s : State} (h : s.inputs.accepts = false) {es : List Event} (he : es ≠ []) :
    emit es s = .fault .transportStuck := by
  cases es <;> simp_all [emit]

/-- All that `emit` can do. -/
theorem emit_cases (es : List Event) (s : State) :
    emit es s = .next { s with events := s.events ++ es } ∨
      (es ≠ [] ∧ s.inputs.accepts = false ∧ emit es s = .fault .transportStuck) := by
  cases h : s.inputs.accepts
  · cases es with
    | nil => left; simp
    | cons e es => right; exact ⟨by simp, rfl, emit_stuck h (by simp)⟩
  · exact .inl (emit_accepts h es)

/-- If `emit` answers a next state, the events were appended and nothing else changed. -/
theorem emit_next {es : List Event} {s t : State} (h : emit es s = .next t) :
    t = { s with events := s.events ++ es } := by
  rcases emit_cases es s with h' | ⟨-, -, h'⟩ <;> rw [h'] at h <;> cases h
  rfl

@[simp] theorem andThen_next (s : State) (f : State → Host.Outcome State Fault Refusal) :
    andThen (.next s) f = f s := rfl

/-- Two emissions in sequence are one emission of both lists. -/
theorem andThen_emit {a b : List Event} {s : State} {f : State → Host.Outcome State Fault Refusal}
    (h : f { s with events := s.events ++ a } = emit b { s with events := s.events ++ a }) :
    andThen (emit a s) f = emit (a ++ b) s := by
  cases hacc : s.inputs.accepts
  · cases a with
    | nil => simpa using h
    | cons e a =>
      rw [emit_stuck hacc (by simp), emit_stuck hacc (by simp)]
      rfl
  · rw [emit_accepts hacc, andThen_next, h, emit_accepts (by simpa using hacc), emit_accepts hacc]
    simp

/-! ### Transactions -/

@[simp] theorem txn_length (a : Byte) (bs : List Byte) : (txn a bs).length = bs.length + 2 := by
  simp [txn]

@[simp] theorem encPowerOn_length : encPowerOn.length = 1 := rfl

@[simp] theorem encSetup_length : encSetup.length = 1 := rfl

@[simp] theorem encBrightness_length (level : Byte) : (encBrightness level).length = 1 := rfl

@[simp] theorem encFrame_length (w : List Word) : (encFrame w).length = 2 * w.length + 1 := by
  induction w with
  | nil => rfl
  | cons x w ih => simp [encFrame] at ih ⊢; omega

@[simp] theorem slice_length (s : State) (d : Nat) : (slice s d).length = Config.cols := by
  simp [slice]

/-- The multiplexer reads the address table and nothing else of the state (R157, R159). -/
theorem mux_congr {s s' : State} (h : s.addr = s'.addr) (ts : List Nat) (f : Nat → List Byte) :
    mux s ts f = mux s' ts f := by
  simp [mux, txnFor, h]

theorem txnFor_of_entry {s : State} {d : Nat} {a : Byte} (h : s.addr[d]? = some a) (bs : List Byte) :
    txnFor s d bs = txn a bs := by
  simp [txnFor, h]

/-! ### Framing -/

theorem Framed.nil : Framed [] := ⟨[], rfl, by simp⟩

theorem Framed.append {a b : List Event} (ha : Framed a) (hb : Framed b) : Framed (a ++ b) := by
  obtain ⟨ts, rfl, hts⟩ := ha
  obtain ⟨us, rfl, hus⟩ := hb
  refine ⟨ts ++ us, by simp, fun t ht => ?_⟩
  rcases List.mem_append.mp ht with ht | ht
  · exact hts t ht
  · exact hus t ht

theorem Framed.txn {a : Byte} {bs : List Byte} (ha : addrLegal a = true) (hb : WireMessage bs) :
    Framed (txn a bs) :=
  ⟨[(a, bs)], by simp, by simp [ha, hb]⟩

theorem Framed.txnFor {s : State} (ha : ∀ a ∈ s.addr, addrLegal a = true) (d : Nat) {bs : List Byte}
    (hb : WireMessage bs) : Framed (txnFor s d bs) := by
  unfold Machine.txnFor
  split
  · rename_i a h
    exact Framed.txn (ha a (List.mem_of_getElem? h)) hb
  · exact Framed.nil

theorem Framed.flatMap {l : List Nat} {f : Nat → List Event} (h : ∀ d ∈ l, Framed (f d)) :
    Framed (l.flatMap f) := by
  induction l with
  | nil => exact Framed.nil
  | cons d l ih =>
    rw [List.flatMap_cons]
    exact (h d (by simp)).append (ih fun e he => h e (by simp [he]))

/-- Whatever the multiplexer sends is framed when the table's entries are legal (R155, R157). -/
theorem Framed.mux {s : State} (ha : ∀ a ∈ s.addr, addrLegal a = true) (ts : List Nat)
    {f : Nat → List Byte} (hf : ∀ d ∈ ts, WireMessage (f d)) : Framed (mux s ts f) :=
  Framed.flatMap fun d hd => Framed.txnFor ha d (hf d hd)

/-! ### The serializer functions give wire messages -/

theorem encPowerOn_wire : WireMessage encPowerOn := .inl rfl

theorem encSetup_wire : WireMessage encSetup := .inr (.inl rfl)

/-- The opcode part and the masked level are the two halves of the byte (R84, R153). -/
theorem dimming_byte (level : Byte) :
    0xE0#8 ||| (level &&& 0x0F#8) = 0xE#4 ++ level.extractLsb' 0 4 := by
  revert level; decide

theorem encBrightness_wire (level : Byte) : WireMessage (encBrightness level) :=
  .inr (.inr (.inl ⟨level.extractLsb' 0 4, by rw [encBrightness, dimming_byte]⟩))

theorem encFrame_wire {w : List Word} (h : w.length = Config.cols) : WireMessage (encFrame w) := by
  refine .inr (.inr (.inr ⟨w.flatMap fun x => [x.extractLsb' 0 8, x.extractLsb' 8 8], ?_, rfl⟩))
  have := encFrame_length w
  simp only [encFrame, List.length_cons, h, Config.cols] at this
  omega

end Sys2Proof.Machine
end

