-- ==== Sys2Proof/Laws/Controller.lean ====
section
/-! SUPPORT. INIT's per-device loop in one equation (R182, R183). -/

namespace Sys2Proof.Machine

theorem memWrite_zero_of_empty {s : State} (h : s.fb = []) (i : Nat) : memWrite s i 0#16 = s := by
  cases s
  simp only at h
  subst h
  simp [memWrite, Memory.write]

theorem foldl_memWrite_zero_of_empty {s : State} (h : s.fb = []) (f : Nat → Nat) (l : List Nat) :
    l.foldl (fun t c => memWrite t (f c) 0#16) s = s := by
  induction l with
  | nil => rfl
  | cons c l ih => rw [List.foldl_cons, memWrite_zero_of_empty h, ih]

/-- Clearing an all-zero buffer changes no value (R183). -/
theorem clearSlice_of_empty {s : State} (h : s.fb = []) (d : Nat) : clearSlice s d = s :=
  foldl_memWrite_zero_of_empty h (fbIndex d) _

/-- Every word of an all-zero buffer reads 0. -/
theorem slice_of_empty {s : State} (h : s.fb = []) (d : Nat) :
    slice s d = List.replicate Config.cols 0#16 := by
  have : ∀ i, memRead s i = 0#16 := fun i => by simp [memRead, h]
  simp [slice, this]

/-- The four transactions of `InitDevice(d)` on a zeroed buffer (R183). -/
def initDeviceEvents (s : State) (d : Nat) : List Event :=
  txnFor s d encPowerOn ++ txnFor s d encSetup ++
    txnFor s d (encBrightness (s.params.defaultBrightness.setWidth 8)) ++
    txnFor s d (encFrame (List.replicate Config.cols 0#16))

theorem mux_single (s : State) (d : Nat) (f : Nat → List Byte) : mux s [d] f = txnFor s d (f d) := by
  simp [mux]

theorem initDevice_eq {s : State} (h : s.fb = []) (d : Nat) :
    initDevice s d = emit (initDeviceEvents s d) s := by
  unfold initDevice initDeviceEvents
  simp only [mux_single, List.append_assoc]
  refine andThen_emit ?_
  refine andThen_emit ?_
  refine andThen_emit ?_
  rw [clearSlice_of_empty (by simpa using h), slice_of_empty (by simpa using h)]
  rfl

theorem initDevices_eq {s : State} (h : s.fb = []) (l : List Nat) :
    initDevices l s = emit (l.flatMap (initDeviceEvents s)) s := by
  induction l generalizing s with
  | nil => rfl
  | cons d l ih =>
    rw [initDevices, initDevice_eq h, List.flatMap_cons]
    refine andThen_emit ?_
    exact ih (by simpa using h)

/-- INIT with `alloc_ok = 1` in one equation: allocate, then the per-device transactions in index order
(R182). -/
theorem execInit_uninitialized {s : State} (hm : s.mode = .uninitialized) (ha : s.inputs.allocOk = true) :
    execInit s = emit ((List.range s.params.n).flatMap (initDeviceEvents s)) (allocate s) := by
  rw [execInit, hm]
  simp only [ha, if_true]
  rw [initDevices_eq rfl]
  rfl

theorem initDeviceEvents_framed {s : State} (ha : ∀ a ∈ s.addr, addrLegal a = true) (d : Nat) :
    Framed (initDeviceEvents s d) :=
  (((Framed.txnFor ha d encPowerOn_wire).append (Framed.txnFor ha d encSetup_wire)).append
    (Framed.txnFor ha d (encBrightness_wire _))).append
    (Framed.txnFor ha d (encFrame_wire (by simp)))

end Sys2Proof.Machine
end

