-- ==== Sys2Proof/Laws/Decode.lean ====
section
/-! SUPPORT. The decoder's table: its rows are disjoint (R93), so a row that selects a word is the one
decoding finds; where the encoder's fields lie; and that what is encoded matches its row of the opcode
table, per instruction in Laws/PerInstr.lean. -/

namespace Sys2Proof

/-! ### Disjoint rows -/

/-- Every row's mask holds the four bits of OP. -/
theorem cmdRows_mask_op : ∀ r ∈ cmdRows, r.mask &&& 0xF0000000#32 = 0xF0000000#32 := by decide

/-- The rows' OP values differ (R93). -/
theorem cmdRows_op_distinct : ∀ r ∈ cmdRows, ∀ r' ∈ cmdRows,
    r.pattern &&& 0xF0000000#32 = r'.pattern &&& 0xF0000000#32 → r = r' := by decide

theorem selects_iff {r : CmdRow} {w : CommandWord} : r.selects w = true ↔ w &&& r.mask = r.pattern := by
  simp [CmdRow.selects]

/-- A selected row has the word's OP. -/
theorem selects_op {r : CmdRow} (hr : r ∈ cmdRows) {w : CommandWord} (h : r.selects w = true) :
    r.pattern &&& 0xF0000000#32 = w &&& 0xF0000000#32 := by
  rw [← selects_iff.mp h, BitVec.and_assoc, cmdRows_mask_op r hr]

/-- No word selects two rows (R93). -/
theorem selects_unique {r r' : CmdRow} (hr : r ∈ cmdRows) (hr' : r' ∈ cmdRows) {w : CommandWord}
    (h : r.selects w = true) (h' : r'.selects w = true) : r = r' :=
  cmdRows_op_distinct r hr r' hr' ((selects_op hr h).trans (selects_op hr' h').symm)

/-- A word that a row selects decodes to that row's instruction (R93, R96). -/
theorem decodeCommand_of_selects {r : CmdRow} (hr : r ∈ cmdRows) {w : CommandWord}
    (h : r.selects w = true) : decodeCommand w = .ok (r.op.build w) := by
  unfold decodeCommand
  cases hf : cmdRows.find? (fun r => r.selects w) with
  | none => exact absurd h (List.find?_eq_none.mp hf r hr)
  | some r' =>
    have : r' = r := selects_unique (List.mem_of_find?_eq_some hf) hr
      (List.find?_some (p := fun r : CmdRow => r.selects w) hf) h
    simp [this]

/-- What decoding a command word can answer. -/
theorem decodeCommand_cases (w : CommandWord) :
    (∃ r ∈ cmdRows, r.selects w = true ∧ decodeCommand w = .ok (r.op.build w)) ∨
      ((∀ r ∈ cmdRows, r.selects w = false) ∧ decodeCommand w = .error (.reservedCommand w)) := by
  cases hf : cmdRows.find? (fun r => r.selects w) with
  | none =>
    refine .inr ⟨fun r hr => by simpa using List.find?_eq_none.mp hf r hr, ?_⟩
    simp [decodeCommand, hf]
  | some r =>
    exact .inl ⟨r, List.mem_of_find?_eq_some hf,
      List.find?_some (p := fun r : CmdRow => r.selects w) hf, by simp [decodeCommand, hf]⟩

/-- A command word never decodes to a wire row. -/
theorem build_isCommand (op : CmdOp) (w : CommandWord) : (op.build w).isCommand = true := by
  cases op <;> rfl

/-! ### The fields of an encoded word -/

/-- A word as the encoder puts it together: OP, the selector, and the other fields. -/
def packed (op : CommandWord) (dsel : Bool) (dev : Byte) (state : Bool) (a b : Byte) : CommandWord :=
  op ||| putSelector dsel dev ||| putState state ||| putA a ||| putB b

section
variable (k : BitVec 4) (dsel : Bool) (dev : Byte) (state : Bool) (a b : Byte)

@[simp] theorem fieldDsel_packed :
    fieldDsel (packed (k.setWidth 32 <<< 28) dsel dev state a b) = dsel := by
  simp [fieldDsel, packed, putSelector, putState, putA, putB]

@[simp] theorem fieldState_packed :
    fieldState (packed (k.setWidth 32 <<< 28) dsel dev state a b) = state := by
  simp [fieldState, packed, putSelector, putState, putA, putB]

@[simp] theorem fieldDev_packed :
    fieldDev (packed (k.setWidth 32 <<< 28) dsel dev state a b) = dev := by
  apply BitVec.eq_of_getLsbD_eq
  intro i hi
  interval_cases i <;> simp [fieldDev, packed, putSelector, putState, putA, putB]

@[simp] theorem fieldA_packed :
    fieldA (packed (k.setWidth 32 <<< 28) dsel dev state a b) = a := by
  apply BitVec.eq_of_getLsbD_eq
  intro i hi
  interval_cases i <;> simp [fieldA, packed, putSelector, putState, putA, putB]

@[simp] theorem fieldB_packed :
    fieldB (packed (k.setWidth 32 <<< 28) dsel dev state a b) = b := by
  apply BitVec.eq_of_getLsbD_eq
  intro i hi
  interval_cases i <;> simp [fieldB, packed, putSelector, putState, putA, putB]

end

@[simp] theorem putA_zero : putA 0#8 = 0#32 := rfl

@[simp] theorem putB_zero : putB 0#8 = 0#32 := rfl

@[simp] theorem putState_false : putState false = 0#32 := rfl

/-- The command words of the encoder, in packed form. -/
theorem encode_packed :
    (∀ dsel dev, encode (.clear dsel dev) =
      .command (packed ((2#4).setWidth 32 <<< 28) dsel dev false 0#8 0#8)) ∧
    (∀ dsel dev level, encode (.setBrightness dsel dev level) =
      .command (packed ((3#4).setWidth 32 <<< 28) dsel dev false level 0#8)) ∧
    (∀ dsel dev state row col, encode (.setLed dsel dev state row col) =
      .command (packed ((4#4).setWidth 32 <<< 28) dsel dev state row col)) ∧
    (∀ dsel dev row col, encode (.getLed dsel dev row col) =
      .command (packed ((5#4).setWidth 32 <<< 28) dsel dev false row col)) ∧
    (∀ dsel dev, encode (.flush dsel dev) =
      .command (packed ((6#4).setWidth 32 <<< 28) dsel dev false 0#8 0#8)) ∧
    (∀ dev addr, encode (.setAddress dev addr) =
      .command (packed ((7#4).setWidth 32 <<< 28) true dev false addr 0#8)) ∧
    (∀ dev rows, encode (.setRowCapacity dev rows) =
      .command (packed ((8#4).setWidth 32 <<< 28) true dev false rows 0#8)) := by
  simp [encode, packed]

/-! ### A word and its two bytes (R86) -/

/-- The high byte above the low byte is the word. -/
theorem word_of_bytes (x : Word) : x.extractLsb' 8 8 ++ x.extractLsb' 0 8 = x := by
  apply BitVec.eq_of_getLsbD_eq
  intro i hi
  rw [BitVec.getLsbD_append]
  by_cases h : i < 8
  · simp [h]
  · have h8 : 8 + (i - 8) = i := by omega
    have hlt : i - 8 < 8 := by omega
    simp [h, h8, hlt]

theorem low_byte (hi lo : Byte) : (hi ++ lo : Word).extractLsb' 0 8 = lo := by
  apply BitVec.eq_of_getLsbD_eq
  intro i h
  have hb := BitVec.getLsbD_append (x := hi) (y := lo) (i := i)
  simp only [h, if_true] at hb
  rw [BitVec.getLsbD_extractLsb', decide_eq_true h, Bool.true_and, Nat.zero_add]
  exact hb

theorem high_byte (hi lo : Byte) : (hi ++ lo : Word).extractLsb' 8 8 = hi := by
  apply BitVec.eq_of_getLsbD_eq
  intro i h
  have hb := BitVec.getLsbD_append (x := hi) (y := lo) (i := 8 + i)
  simp only [show ¬ (8 + i < 8) by omega, if_false, show 8 + i - 8 = i by omega] at hb
  rw [BitVec.getLsbD_extractLsb', decide_eq_true h, Bool.true_and]
  exact hb

end Sys2Proof
end

