-- ==== Sys2Proof/Laws/Exec.lean ====
section
/-! SUPPORT. Said once: all that an instruction can do when it answers a next state, and all that a step can
do. The invariants and frames are derived from these, without unfolding the meanings again. -/

namespace Sys2Proof.Machine

/-- The effects an instruction can have, each with the condition under which it has it. -/
inductive Effect : Instr → State → State → Prop where
  /-- A command turned into a no-op (R130, R132, R156, R213; R111). -/
  | nothing (i : Instr) (s : State) : Effect i s s
  /-- INIT outside Uninitialized (R184). -/
  | reInit (s : State) (h : s.mode ≠ .uninitialized) : Effect .init s (refuse .reInit s)
  /-- INIT whose allocation fails (R182). -/
  | allocFails (s : State) (hm : s.mode = .uninitialized) (ha : s.inputs.allocOk = false) :
      Effect .init s { s with mode := .disabled }
  /-- INIT whose allocation succeeds (R182, R183). -/
  | configures (s : State) (hm : s.mode = .uninitialized) (ha : s.inputs.allocOk = true) :
      Effect .init s { allocate s with
        events := s.events ++ (List.range s.params.n).flatMap (initDeviceEvents s) }
  /-- CLEAR of existing devices (R133). -/
  | clears (dsel : Bool) (dev : Byte) (s : State) (h : s.mode = .ready) :
      Effect (.clear dsel dev) s ((targets s.params.n dsel dev).foldl clearSlice s)
  /-- SET_LED in range (R134). -/
  | setsBit (dsel : Bool) (dev : Byte) (state : Bool) (row col : Byte) (s : State) (v : Word)
      (h : s.mode = .ready) (hr : inRange s (ledDevice dsel dev) row.toNat col.toNat = true) :
      Effect (.setLed dsel dev state row col) s
        (memWrite s (fbIndex (ledDevice dsel dev) col.toNat) v)
  /-- GET_LED (R135). -/
  | answers (dsel : Bool) (dev row col : Byte) (s : State) (v : Bool) :
      Effect (.getLed dsel dev row col) s (respond v s)
  /-- SET_ADDRESS rejected (R110). -/
  | rejects (dev addr : Byte) (s : State) : Effect (.setAddress dev addr) s (respond false s)
  /-- SET_ADDRESS accepted (R110). -/
  | setsAddress (dev addr : Byte) (s : State) (hd : dev.toNat < s.params.n)
      (ha : addrLegal addr = true) :
      Effect (.setAddress dev addr) s (respond true { s with addr := s.addr.set dev.toNat addr })
  /-- SET_ROW_CAPACITY accepted (R111). -/
  | setsRows (dev rows : Byte) (s : State) (hd : dev.toNat < s.params.n)
      (hr : rowsLegal rows.toNat = true) :
      Effect (.setRowCapacity dev rows) s { s with rows := s.rows.set dev.toNat (rows.setWidth 5) }
  /-- A command or a serializer operation that sends one message to each of some devices (R157, R185,
  R186, log 7). -/
  | sends (i : Instr) (s : State) (ts : List Nat) (f : Nat → List Byte)
      (hi : i.isCommand = false ∨ (∃ dsel dev level, i = .setBrightness dsel dev level) ∨
        ∃ dsel dev, i = .flush dsel dev)
      (hf : i.wellFormed = true → ∀ d ∈ ts, WireMessage (f d)) :
      Effect i s { s with events := s.events ++ mux s ts f }

/-- The frame of every instruction: parameters, the host's stream, its position and the inputs (R6, R31). -/
theorem Effect.frame {i : Instr} {s t : State} (h : Effect i s t) :
    t.params = s.params ∧ t.pending = s.pending ∧ t.pos = s.pos ∧ t.inputs = s.inputs := by
  cases h with
  | clears dsel dev s h => rw [foldl_clearSlice_sameButFb]; exact ⟨rfl, rfl, rfl, rfl⟩
  | _ => simp

/-- All that an instruction can do when it answers a next state. -/
theorem exec_effect {i : Instr} {s t : State} (h : exec i s = .next t) : Effect i s t := by
  cases i with
  | init =>
    change execInit s = .next t at h
    cases hm : s.mode with
    | uninitialized =>
      cases ha : s.inputs.allocOk with
      | false =>
        simp only [execInit, hm, ha, Bool.false_eq_true, if_false] at h
        cases h
        exact .allocFails s hm ha
      | true =>
        rw [execInit_uninitialized hm ha] at h
        rw [emit_next h]
        exact .configures s hm ha
    | ready =>
      simp only [execInit, hm] at h
      cases h
      exact .reInit s (by simp [hm])
    | disabled =>
      simp only [execInit, hm] at h
      cases h
      exact .reInit s (by simp [hm])
  | clear dsel dev =>
    simp only [exec, execClear] at h
    split at h
    · rename_i hu
      cases h
      exact .clears dsel dev s (by simpa [bufferUsable] using hu)
    · cases h; exact .nothing _ _
  | setBrightness dsel dev level =>
    rw [emit_next (show emit _ _ = _ from h)]
    exact .sends _ s _ _ (.inr (.inl ⟨_, _, _, rfl⟩)) fun _ _ _ => encBrightness_wire level
  | setLed dsel dev state row col =>
    simp only [exec, execSetLed] at h
    split at h
    · rename_i hu
      cases h
      simp only [Bool.and_eq_true, bufferUsable, beq_iff_eq] at hu
      exact .setsBit dsel dev state row col s _ hu.1 hu.2
    · cases h; exact .nothing _ _
  | getLed dsel dev row col =>
    simp only [exec, execGetLed] at h
    split at h <;> cases h <;> exact .answers dsel dev row col s _
  | flush dsel dev =>
    simp only [exec, execFlush] at h
    split at h
    · rw [emit_next h]
      exact .sends _ s _ _ (.inr (.inr ⟨_, _, rfl⟩)) fun _ d _ => encFrame_wire (slice_length s d)
    · cases h; exact .nothing _ _
  | setAddress dev addr =>
    simp only [exec, execSetAddress] at h
    split at h
    · rename_i hu
      cases h
      simp only [Bool.and_eq_true, decide_eq_true_eq] at hu
      exact .setsAddress dev addr s hu.1 hu.2
    · cases h; exact .rejects dev addr s
  | setRowCapacity dev rows =>
    simp only [exec, execSetRowCapacity] at h
    split at h
    · rename_i hu
      cases h
      simp only [Bool.and_eq_true, decide_eq_true_eq] at hu
      exact .setsRows dev rows s hu.1 hu.2
    · cases h; exact .nothing _ _
  | wPowerOn =>
    rw [emit_next (show emit _ _ = _ from h)]
    exact .sends _ s _ _ (.inl rfl) fun _ _ _ => encPowerOn_wire
  | wDisplaySetup =>
    rw [emit_next (show emit _ _ = _ from h)]
    exact .sends _ s _ _ (.inl rfl) fun _ _ _ => encSetup_wire
  | wDimming level =>
    rw [emit_next (show emit _ _ = _ from h)]
    exact .sends _ s _ _ (.inl rfl) fun _ _ _ => encBrightness_wire _
  | wRamWrite words =>
    rw [emit_next (show emit _ _ = _ from h)]
    exact .sends _ s _ _ (.inl rfl) fun hw _ _ => encFrame_wire (by simpa [Instr.wellFormed] using hw)

/-- What decodes is well-formed. -/
theorem decode_wellFormed {c : Code} {i : Instr} (h : decode c = .ok i) : i.wellFormed = true := by
  cases c with
  | command w =>
    rcases decodeCommand_cases w with ⟨r, -, -, hd⟩ | ⟨-, hd⟩ <;>
      rw [show decode (.command w) = _ from hd] at h <;> cases h
    cases r.op <;> rfl
  | wire bs =>
    simp only [decode] at h
    split at h <;> cases h
    rename_i hm
    cases bs with
    | nil => cases hm
    | cons b rest =>
      simp only [decodeMessage] at hm
      split at hm
      · cases hm; rfl
      · split at hm
        · cases hm; rfl
        · split at hm
          · cases hm; rfl
          · split at hm
            · split at hm
              · cases hm
              · rename_i hl
                simp only [Option.some.injEq, Prod.mk.injEq] at hm
                obtain ⟨rfl, -⟩ := hm
                have hw : ∀ l : List Byte, (wordsOfBytes l).length = l.length / 2 := by
                  intro l
                  induction l using wordsOfBytes.induct with
                  | case1 lo hi rest ih => simp [wordsOfBytes, ih]; omega
                  | case2 => simp [wordsOfBytes]
                  | case3 => simp [wordsOfBytes]
                simp only [Config.cols] at hl
                simp [Instr.wellFormed, hw, Config.cols]
                omega
            · cases hm

/-- All that a step can do when it answers a next state. -/
theorem step_cases {s t : State} (h : step s = .next t) :
    (s.pending = [] ∧ t = s) ∨
    (∃ r rest i, s.pending = r :: rest ∧ decode r.code = .ok i ∧ i.wellFormed = true ∧
      Effect i (accept r rest s) t) ∨
    (∃ r rest w, s.pending = r :: rest ∧ decode r.code = .error (.reservedCommand w) ∧
      t = refuse (.reservedCommand w) (accept r rest s)) := by
  cases hp : s.pending with
  | nil =>
    simp only [step, hp] at h
    cases h
    exact .inl ⟨rfl, rfl⟩
  | cons r rest =>
    simp only [step, hp] at h
    cases hd : decode r.code with
    | ok i =>
      rw [hd] at h
      exact .inr (.inl ⟨r, rest, i, rfl, hd, decode_wellFormed hd, exec_effect h⟩)
    | error e =>
      rw [hd] at h
      cases e with
      | reservedCommand w =>
        cases h
        exact .inr (.inr ⟨r, rest, w, rfl, hd, rfl⟩)
      | unknownWireMessage bs => cases h

end Sys2Proof.Machine
end

