-- ==== Sys2Proof/Laws/PerInstr.lean ====
section
/-! SUPPORT. The statements made per instruction. Family `EncodesItsRow`: the first word of a well-formed
instruction's encoding matches its own row of spec/opcode_table.json, under that row's mask. -/

namespace Sys2Proof.Laws.EncodesItsRow

/-- The "match" and "mask" of the instruction's row in spec/opcode_table.json. -/
def tableRow : Instr → Nat × Nat
  | .init => (0x10000000, 0xFFFFFFFF)
  | .clear _ _ => (0x20000000, 0xF700FFFF)
  | .setBrightness _ _ _ => (0x30000000, 0xF70000FF)
  | .setLed _ _ _ _ _ => (0x40000000, 0xF3000000)
  | .getLed _ _ _ _ => (0x50000000, 0xF7000000)
  | .flush _ _ => (0x60000000, 0xF700FFFF)
  | .setAddress _ _ => (0x78000000, 0xFF0000FF)
  | .setRowCapacity _ _ => (0x88000000, 0xFF0000FF)
  | .wPowerOn => (0x21, 0xFF)
  | .wDisplaySetup => (0x81, 0xFF)
  | .wDimming _ => (0xE0, 0xF0)
  | .wRamWrite _ => (0x00, 0xFF)

/-- The first word of a code: the command word, or the message's opcode byte. -/
def firstWord : Code → Nat
  | .command w => w.toNat
  | .wire [] => 0
  | .wire (b :: _) => b.toNat

/-- The encoding matches the instruction's own row. -/
def Statement (i : Instr) : Prop :=
  i.wellFormed = true → firstWord (encode i) &&& (tableRow i).2 = (tableRow i).1

/-- A masked word, as numbers. -/
theorem firstWord_command {w m p : CommandWord} (h : w &&& m = p) :
    firstWord (.command w) &&& m.toNat = p.toNat := by
  rw [firstWord, ← BitVec.toNat_and, h]

theorem init : Statement .init := fun _ => by decide

theorem clear (dsel : Bool) (dev : Byte) : Statement (.clear dsel dev) := fun _ => by
  refine firstWord_command (m := 0xF700FFFF#32) (p := 0x20000000#32) ?_
  apply BitVec.eq_of_getLsbD_eq
  intro i hi
  interval_cases i <;> simp [putSelector]

theorem setBrightness (dsel : Bool) (dev level : Byte) : Statement (.setBrightness dsel dev level) :=
  fun _ => by
  refine firstWord_command (m := 0xF70000FF#32) (p := 0x30000000#32) ?_
  apply BitVec.eq_of_getLsbD_eq
  intro i hi
  interval_cases i <;> simp [putSelector, putA]

theorem setLed (dsel : Bool) (dev : Byte) (state : Bool) (row col : Byte) :
    Statement (.setLed dsel dev state row col) := fun _ => by
  refine firstWord_command (m := 0xF3000000#32) (p := 0x40000000#32) ?_
  apply BitVec.eq_of_getLsbD_eq
  intro i hi
  interval_cases i <;> simp [putSelector, putState, putA, putB]

theorem getLed (dsel : Bool) (dev row col : Byte) : Statement (.getLed dsel dev row col) := fun _ => by
  refine firstWord_command (m := 0xF7000000#32) (p := 0x50000000#32) ?_
  apply BitVec.eq_of_getLsbD_eq
  intro i hi
  interval_cases i <;> simp [putSelector, putA, putB]

theorem flush (dsel : Bool) (dev : Byte) : Statement (.flush dsel dev) := fun _ => by
  refine firstWord_command (m := 0xF700FFFF#32) (p := 0x60000000#32) ?_
  apply BitVec.eq_of_getLsbD_eq
  intro i hi
  interval_cases i <;> simp [putSelector]

theorem setAddress (dev addr : Byte) : Statement (.setAddress dev addr) := fun _ => by
  refine firstWord_command (m := 0xFF0000FF#32) (p := 0x78000000#32) ?_
  apply BitVec.eq_of_getLsbD_eq
  intro i hi
  interval_cases i <;> simp [putSelector, putA]

theorem setRowCapacity (dev rows : Byte) : Statement (.setRowCapacity dev rows) := fun _ => by
  refine firstWord_command (m := 0xFF0000FF#32) (p := 0x88000000#32) ?_
  apply BitVec.eq_of_getLsbD_eq
  intro i hi
  interval_cases i <;> simp [putSelector, putA]

theorem wPowerOn : Statement .wPowerOn := fun _ => by decide

theorem wDisplaySetup : Statement .wDisplaySetup := fun _ => by decide

theorem wDimming (level : BitVec 4) : Statement (.wDimming level) := fun _ => by
  revert level; decide

theorem wRamWrite (words : List Word) : Statement (.wRamWrite words) := fun _ => by
  simp [encode, firstWord, tableRow]

end Sys2Proof.Laws.EncodesItsRow
end

