-- ==== Sys2Proof/Tests/Slice0.lean ====
section
/-! SUPPORT. Tests. The expected values are the spec's: the tables of spec/95_test_vectors.md (the row is
named at each test), or the rule named. After them, one witness for the hypotheses of each obligation. -/

namespace Sys2Proof.Tests

open Sys2Proof Sys2Proof.Machine

/-! ### Helpers -/

/-- A block of `n` devices right after construction (section 2 of the vectors: brightness 8). -/
def fresh (n : Nat) : State := State.initial { n := n, defaultBrightness := 8#4 }

/-- A block of `n` devices in Ready with the given buffer. -/
def ready (n : Nat) (fb : Memory) : State := { fresh n with mode := .ready, alloc := .allocated, fb := fb }

/-- A block of `n` devices in Disabled. -/
def disabled (n : Nat) : State := { fresh n with mode := .disabled }

/-- A request with the inputs at reset. -/
def request (w : CommandWord) : Request := { code := .command w, inputs := .atReset }

/-- One step with a command word on the command port. -/
def stepOn (w : CommandWord) (s : State) : Host.Outcome State Fault Refusal :=
  step { s with pending := [request w] }

/-- A part of the next state. -/
def shows {α : Type} (f : State → α) : Host.Outcome State Fault Refusal → Option α
  | .next t => some (f t)
  | .fault _ => none
  | .refused _ => none

/-- The frame message of 17 zero bytes. -/
def zeroFrame : List Byte := List.replicate 17 0#8

/-! ### WellFormed: the one check refuses -/

theorem test_ramWrite_no_words_ill_formed : (Instr.wRamWrite []).wellFormed = false := by decide
theorem test_ramWrite_seven_words_ill_formed : (Instr.wRamWrite (List.replicate 7 0#16)).wellFormed = false := by
  decide
theorem test_ramWrite_nine_words_ill_formed : (Instr.wRamWrite (List.replicate 9 0#16)).wellFormed = false := by
  decide
theorem test_ramWrite_eight_words_well_formed : (Instr.wRamWrite (List.replicate 8 0#16)).wellFormed = true := by
  decide

/-! ### Decode: every constructor by a word of the spec (section 2.1; R82 to R86) -/

theorem test_decode_init : decode (.command 0x10000000#32) = .ok .init := by decide
theorem test_decode_clear : decode (.command 0x28FF0000#32) = .ok (.clear true 0xFF#8) := by decide
theorem test_decode_clear_broadcast : decode (.command 0x20000000#32) = .ok (.clear false 0#8) := by decide
theorem test_decode_setBrightness : decode (.command 0x30001F00#32) = .ok (.setBrightness false 0#8 31#8) := by
  decide
theorem test_decode_setLed : decode (.command 0x4C010203#32) = .ok (.setLed true 1#8 true 2#8 3#8) := by decide
theorem test_decode_setLed_off : decode (.command 0x40000000#32) = .ok (.setLed false 0#8 false 0#8 0#8) := by
  decide
theorem test_decode_getLed : decode (.command 0x50000F07#32) = .ok (.getLed false 0#8 15#8 7#8) := by decide
theorem test_decode_flush : decode (.command 0x68070000#32) = .ok (.flush true 7#8) := by decide
theorem test_decode_setAddress : decode (.command 0x78017500#32) = .ok (.setAddress 1#8 0x75#8) := by decide
theorem test_decode_setRowCapacity : decode (.command 0x88001000#32) = .ok (.setRowCapacity 0#8 16#8) := by
  decide
theorem test_decode_wPowerOn : decode (.wire [0x21#8]) = .ok .wPowerOn := by decide
theorem test_decode_wDisplaySetup : decode (.wire [0x81#8]) = .ok .wDisplaySetup := by decide
theorem test_decode_wDimming : decode (.wire [0xE7#8]) = .ok (.wDimming 7#4) := by decide

/-- E14 read backwards. -/
theorem test_decode_wRamWrite :
    decode (.wire [0x00#8, 0x34#8, 0x12#8, 0x78#8, 0x56#8, 0xBC#8, 0x9A#8, 0xF0#8, 0xDE#8,
      0x0F#8, 0x0F#8, 0xF0#8, 0xF0#8, 0xFF#8, 0x00#8, 0x00#8, 0xFF#8]) =
    .ok (.wRamWrite [0x1234#16, 0x5678#16, 0x9ABC#16, 0xDEF0#16, 0x0F0F#16, 0xF0F0#16, 0x00FF#16, 0xFF00#16]) := by
  decide

/-- The Reserved rows of section 2.1. -/
theorem test_decode_reserved :
    [0x00000000#32, 0x10000001#32, 0x18000000#32, 0x20000100#32, 0x23000000#32, 0x24000000#32, 0x3800FF05#32,
      0x30000001#32, 0x41000000#32].all (fun w => decode (.command w) == .error (.reservedCommand w)) = true := by
  decide

theorem test_decode_reserved_more :
    [0x54000000#32, 0x60000001#32, 0x70017500#32, 0x78017501#32, 0x80001000#32, 0x8C001000#32, 0x90000000#32,
      0xF0000000#32].all (fun w => decode (.command w) == .error (.reservedCommand w)) = true := by
  decide

/-- R81: a frame write is 17 bytes; a shorter one is no message. -/
theorem test_decode_short_frame :
    decode (.wire [0x00#8, 0x01#8]) = .error (.unknownWireMessage [0x00#8, 0x01#8]) := by decide

/-- R82 to R86: the messages the encoder writes. -/
theorem test_encode_wire :
    encode .wPowerOn = .wire [0x21#8] ∧ encode .wDisplaySetup = .wire [0x81#8] ∧
    encode (.wDimming 15#4) = .wire [0xEF#8] ∧
    encode (.wRamWrite [0#16, 0#16, 0#16, 0#16, 0#16, 0#16, 0#16, 0x8000#16]) =
      .wire (List.replicate 16 0x00#8 ++ [0x80#8]) := by
  decide

/-! ### The table's numbering -/

theorem test_table_command : decodeTableWord 32 0x4C010203 = some (.setLed true 1#8 true 2#8 3#8) := by decide
theorem test_table_dimming : decodeTableWord 8 0xE5 = some (.wDimming 5#4) := by decide
theorem test_table_ramWrite : decodeTableWord 8 0 = some (.wRamWrite (List.replicate 8 0#16)) := by decide
theorem test_table_reserved : decodeTableWord 32 0x90000000 = none := by decide

/-- The first step after reset runs the placed instruction (R110). -/
theorem test_fetch_setAddress :
    shows (fun t => (t.addr[1]?, t.response)) (step (State.reset.withFetchWord 32 0x78017500)) =
      some (some 0x75#8, some true) := by decide

/-- The first step after reset sends the placed message to device 0 (R157). -/
theorem test_fetch_wPowerOn :
    shows State.events (step (State.reset.withFetchWord 8 0x21)) =
      some [.beginTx 0x70#8, .write 0x21#8, .endTx] := by decide

/-- The first step after reset runs INIT (R182). -/
theorem test_fetch_init :
    shows State.mode (step (State.reset.withFetchWord 32 0x10000000)) = some .ready := by decide

/-! ### Construction -/

/-- R6. -/
theorem test_construct_bounds :
    construct { n := 0, defaultBrightness := 8#4 } = .error (.deviceCount 0) ∧
    construct { n := 9, defaultBrightness := 8#4 } = .error (.deviceCount 9) ∧
    construct { n := 8, defaultBrightness := 8#4 } = .ok State.reset := by decide

/-- R240: `Addr[7]` at reset, and the memory's form. -/
theorem test_reset :
    State.reset.addr[7]? = some 0x77#8 ∧ State.reset.rows = List.replicate 8 8#5 ∧
    State.reset.mode.code = 0#2 ∧ State.reset.fb.wf := by decide

/-- A write of 0 takes the entry away, and the entries stay in rising order. -/
theorem test_memory_canonical :
    Memory.write (Memory.write (Memory.write [] 9 2#16) 3 1#16) 9 0#16 = [(3, 1#16)] := by decide

/-! ### AddressTable (section 2.3, N = 2) -/

/-- A1. -/
theorem test_A1 : shows (fun t => (t.addr, t.response)) (stepOn 0x78017500#32 (fresh 2)) =
    some ([0x70#8, 0x75#8], some true) := by decide
/-- A3. -/
theorem test_A3 : shows (fun t => (t.addr, t.response)) (stepOn 0x78017800#32 (fresh 2)) =
    some ([0x70#8, 0x71#8], some false) := by decide
/-- A9. -/
theorem test_A9 : shows (fun t => (t.rows, t.response)) (stepOn 0x88010C00#32 (fresh 2)) =
    some ([8#5, 12#5], none) := by decide
/-- A8. -/
theorem test_A8 : shows State.rows (stepOn 0x88000A00#32 (fresh 2)) = some [8#5, 8#5] := by decide

/-! ### FrameBuffer (section 2.4) -/

/-- The state of F1 to F8: N = 1, capacity 12. -/
def tall (fb : Memory) : State := { ready 1 fb with rows := [12#5] }

/-- F7: device 0 by an omitted selector, row 11 of column 1. -/
theorem test_F7 : shows State.fb (stepOn 0x44FF0B01#32 (tall [])) = some [(1, 0x0800#16)] := by decide
/-- F2: the row is at the capacity. -/
theorem test_F2 : shows State.fb (stepOn 0x4C000C00#32 (tall [])) = some [] := by decide
/-- F8. -/
theorem test_F8 : shows State.response (stepOn 0x50000B01#32 (tall [(1, 0x0800#16)])) = some (some true) := by
  decide
/-- F19: a bit above the capacity reads as 0. -/
theorem test_F19 : shows State.response (stepOn 0x58000C00#32 (ready 1 [(0, 0x1000#16)])) = some (some false) := by
  decide
/-- F9. -/
theorem test_F9 : shows State.fb (stepOn 0x28010000#32 (ready 3 [(0, 1#16), (8, 1#16), (16, 1#16)])) =
    some [(0, 1#16), (16, 1#16)] := by decide
/-- F14: every device, whatever DEV holds. -/
theorem test_F14 : shows State.fb (stepOn 0x20FF0000#32 (ready 3 [(0, 1#16), (16, 1#16)])) = some [] := by decide

/-! ### DeviceController (section 2.5) -/

/-- C1. -/
theorem test_C1 : shows (fun t => (t.events, t.mode)) (stepOn 0x10000000#32 (fresh 1)) =
    some (txn 0x70#8 [0x21#8] ++ txn 0x70#8 [0x81#8] ++ txn 0x70#8 [0xE8#8] ++ txn 0x70#8 zeroFrame, .ready) := by
  decide
/-- C4. -/
theorem test_C4 : shows (fun t => (t.events, t.mode, t.refused)) (stepOn 0x10000000#32 (ready 1 [])) =
    some ([], .ready, true) := by decide
/-- C6: level 16 is cut to 0. -/
theorem test_C6 : shows State.events (stepOn 0x30001000#32 (ready 3 [])) =
    some (txn 0x70#8 [0xE0#8] ++ txn 0x71#8 [0xE0#8] ++ txn 0x72#8 [0xE0#8]) := by decide
/-- C7: no device 3. -/
theorem test_C7 : shows State.events (stepOn 0x38030500#32 (ready 3 [])) = some [] := by decide
/-- F21: the frame carries the bit above the capacity. -/
theorem test_F21 : shows State.events (stepOn 0x68000000#32 (ready 1 [(0, 0x1000#16)])) =
    some (txn 0x70#8 (0x00#8 :: 0x00#8 :: 0x10#8 :: List.replicate 14 0x00#8)) := by decide
/-- C10. -/
theorem test_C10 : shows State.events (stepOn 0x60000000#32 (fresh 2)) = some [] := by decide
/-- M5. -/
theorem test_M5 : shows (fun t => (t.refused, t.refusals, t.pos)) (stepOn 0#32 (disabled 2)) =
    some (true, [.reservedCommand 0#32], 1) := by decide

/-! ### The wire rows (section 2.2) -/

/-- E17. -/
theorem test_E17 : shows State.events (exec .wPowerOn (fresh 1)) =
    some [.beginTx 0x70#8, .write 0x21#8, .endTx] := by decide
/-- S1. -/
theorem test_S1 : shows State.events (exec .wDisplaySetup (fresh 1)) = some (txn 0x70#8 [0x81#8]) := by decide
/-- E4. -/
theorem test_E4 : shows State.events (exec (.wDimming 15#4) (fresh 1)) = some (txn 0x70#8 [0xEF#8]) := by decide
/-- E12: a word's low byte comes first. -/
theorem test_E12 : shows State.events (exec (.wRamWrite (0x8000#16 :: List.replicate 7 0#16)) (fresh 1)) =
    some (txn 0x70#8 (0x00#8 :: 0x00#8 :: 0x80#8 :: List.replicate 14 0x00#8)) := by decide
/-- E9. -/
theorem test_E9 : encBrightness 255#8 = [0xEF#8] := by decide

/-! ### The assembler (P1, P3; R97, R98) -/

theorem test_assemble_words :
    ((Assembler.parse "SET_LED 0, 15, 7, 1".toList).bind Assembler.assemble = some [.command 0x4C000F07#32]) ∧
    ((Assembler.parse "LED_ON 0, 0".toList).bind Assembler.assemble = some [.command 0x44000000#32]) ∧
    ((Assembler.parse "SET_ADDRESS 1, 0x75".toList).bind Assembler.assemble = some [.command 0x78017500#32]) := by
  decide

/-- R97: an operand above 255 is rejected. -/
theorem test_assemble_too_large :
    (Assembler.parse "SET_BRIGHTNESS 256".toList).bind Assembler.assemble = none := by decide

/-! ### Witnesses: states and operands that meet the hypotheses of the obligations -/

theorem fresh_inv : (fresh 3).Inv where
  params_legal := by decide
  addr_length := by decide
  rows_length := by decide
  addr_legal := by decide
  rows_legal := by decide
  alloc_ready := by decide
  fb_wf := by decide
  fb_domain := by decide
  fb_unallocated := by decide
  events_framed := ⟨[], rfl, by simp⟩
  refused_reasons := rfl
  response_last := by simp [fresh, State.initial]

theorem ready_inv : (ready 3 [(23, 0x8001#16)]).Inv where
  params_legal := by decide
  addr_length := by decide
  rows_length := by decide
  addr_legal := by decide
  rows_legal := by decide
  alloc_ready := by decide
  fb_wf := by decide
  fb_domain := by decide
  fb_unallocated := by decide
  events_framed := ⟨[], rfl, by simp⟩
  refused_reasons := rfl
  response_last := by simp [ready, fresh, State.initial]

theorem disabled_inv : (disabled 3).Inv where
  params_legal := by decide
  addr_length := by decide
  rows_length := by decide
  addr_legal := by decide
  rows_legal := by decide
  alloc_ready := by decide
  fb_wf := by decide
  fb_domain := by decide
  fb_unallocated := by decide
  events_framed := ⟨[], rfl, by simp⟩
  refused_reasons := rfl
  response_last := by simp [disabled, fresh, State.initial]

/-- DecodeEncodeRoundTrip, EncodeDecodeRoundTrip. -/
theorem witness_roundTrip :
    (Instr.wRamWrite (List.replicate 8 0xFFFF#16)).wellFormed = true ∧
    decode (.command 0x4CFFFFFF#32) = .ok (.setLed true 255#8 true 255#8 255#8) := by decide

/-- ReservedWordsAreRefused: a word of the last case, on the command port. -/
theorem witness_reserved :
    ({ fresh 1 with pending := [request 0x70017500#32] } : State).pending =
        { code := .command 0x70017500#32, inputs := .atReset } :: [] ∧
    (0x70017500#32 : CommandWord).extractLsb' 28 4 = 7#4 ∧ (0x70017500#32 : CommandWord).getLsbD 27 = false := by
  decide

/-- StepRunsDecodedInstruction, PositionAdvancesByOne, StateWrittenOnlyByItsCommands. -/
theorem witness_step :
    (State.reset.withFetchWord 32 0x78017500).pending = request 0x78017500#32 :: [] ∧
    decode (request 0x78017500#32).code = .ok (.setAddress 1#8 0x75#8) ∧
    shows State.pos (step (State.reset.withFetchWord 32 0x78017500)) = some 1 := by decide

/-- IdleStepWaits. -/
theorem witness_idle : State.reset.pending = [] := by decide

/-- UnknownWireBytesRefused. -/
theorem witness_unknown : ∀ i, decode (.wire [0x22#8]) ≠ .ok i := by
  have h : decode (.wire [0x22#8]) = .error (.unknownWireMessage [0x22#8]) := by decide
  intro i
  rw [h]
  simp

/-- EveryInstructionCompletes and the statements that ask for an accepting transport. -/
theorem witness_accepts : (fresh 3).inputs.accepts = true ∧ (ready 3 []).inputs.accepts = true := by decide

/-- StuckExactlyWhenTransportRefuses: both sides hold of SET_BRIGHTNESS, neither of GET_LED. -/
theorem witness_stuck :
    exec (.setBrightness false 0#8 5#8) { fresh 1 with inputs := { Inputs.atReset with accepts := false } } =
      .fault .transportStuck ∧
    shows State.response (exec (.getLed false 0#8 0#8 0#8)
      { fresh 1 with inputs := { Inputs.atReset with accepts := false } }) = some (some false) :=
  ⟨rfl, by decide⟩

/-- ConstructionGivesResetState, DeviceCountBoundedAndFixed, ConstructionMeetsInvariant. -/
theorem witness_construct :
    Params.legal { n := 1, defaultBrightness := 0#4 } ∧ Params.legal { n := 8, defaultBrightness := 15#4 } ∧
    (∃ s, construct { n := 1, defaultBrightness := 0#4 } = .ok s) := by
  refine ⟨by decide, by decide, _, rfl⟩

/-- StepKeepsInvariant, ModeTransitionsOnlyByInit: INIT leaves Uninitialized either way. -/
theorem witness_init_step :
    (fresh 3).Inv ∧ shows State.mode (stepOn 0x10000000#32 (fresh 3)) = some .ready ∧
    shows State.mode (step { fresh 3 with
      pending := [{ request 0x10000000#32 with inputs := { Inputs.atReset with allocOk := false } }] }) =
      some .disabled := by
  refine ⟨fresh_inv, by decide, by decide⟩

/-- RefusedMarkPersists. -/
theorem witness_refused :
    ({ fresh 1 with refused := true, refusals := [.reInit] } : State).refused = true ∧
    shows State.refused (stepOn 0x30000500#32 { fresh 1 with refused := true, refusals := [.reInit] }) =
      some true := by decide

/-- ExactlyThreeCommandsTransmit, StepAppendsWholeTransactions. -/
theorem witness_transmits :
    (Instr.flush true 2#8).isCommand = true ∧ (∀ a ∈ (ready 3 []).addr, addrLegal a = true) ∧
    shows State.events (exec (.flush true 2#8) (ready 3 [])) = some (txn 0x72#8 zeroFrame) := by decide

/-- DisabledStaysInert: M1, M2, M3. -/
theorem witness_disabled :
    (disabled 2).mode = .disabled ∧ shows State.mode (stepOn 0x4C000101#32 (disabled 2)) = some .disabled ∧
    shows State.response (stepOn 0x58000101#32 (disabled 2)) = some (some false) ∧
    shows State.events (stepOn 0x60000000#32 (disabled 2)) = some [] := by
  decide

/-- SetAddressWritesOrRejects: the last device, the bounds of the addresses, and one past each. -/
theorem witness_setAddress :
    (fresh 3).addr.length = (fresh 3).params.n ∧ (2#8).toNat < (fresh 3).params.n ∧ (0x77#8).toNat ≤ 0x77 ∧
    0x70 ≤ (0x70#8).toNat ∧ ¬ 0x70 ≤ (0x6F#8).toNat ∧ ¬ (3#8).toNat < (fresh 3).params.n ∧ ¬ (0x78#8).toNat ≤ 0x77 := by decide

/-- SetRowCapacityWritesOrIgnores, CapacityShrinkKeepsHiddenBits. -/
theorem witness_rows :
    (ready 3 []).rows.length = (ready 3 []).params.n ∧ (2#8).toNat < (ready 3 []).params.n ∧
    (16#8).toNat = 16 ∧ (ready 3 []).mode = .ready ∧ (8#8).toNat ≤ (8#8).toNat ∧ ¬ ((9#8).toNat = 8) := by
  decide

/-- DuplicateAddressIsAccepted, ReaddressRedirectsLaterTransactions. -/
theorem witness_readdress :
    (ready 3 [(23, 0x8001#16)]).Inv ∧ (0#8).toNat < (ready 3 [(23, 0x8001#16)]).params.n ∧
    (2#8).toNat < (ready 3 [(23, 0x8001#16)]).params.n ∧ 0x70 ≤ (0x70#8).toNat ∧ (0x70#8).toNat ≤ 0x77 := by
  refine ⟨ready_inv, by decide, by decide, by decide, by decide⟩

/-- ClearZeroesExactlyItsTargets: a state of each clause. -/
theorem witness_clear :
    (ready 3 [(23, 0x8001#16)]).Inv ∧ (ready 3 [(23, 0x8001#16)]).mode = .ready ∧
    (fresh 3).Inv ∧ (fresh 3).mode ≠ .ready ∧ (fresh 3).params.n ≤ (3#8).toNat := by
  refine ⟨ready_inv, by decide, fresh_inv, by decide, by decide⟩

/-- SetLedWritesExactlyOneBit, GetLedAnswersTheBit, SetLedThenGetLedRoundTrips: the last LED in range, and
the first row, column and device out of range. -/
theorem witness_led :
    LedInRange (ready 3 [(23, 0x8001#16)]) 2 7 7 ∧ ¬ LedInRange (ready 3 [(23, 0x8001#16)]) 2 8 7 ∧
    ¬ LedInRange (ready 3 [(23, 0x8001#16)]) 2 7 8 ∧ ¬ LedInRange (ready 3 [(23, 0x8001#16)]) 3 0 0 := by
  refine ⟨⟨rfl, by decide, by decide, 8#5, by decide, by decide⟩, ?_, ?_, ?_⟩
  · rintro ⟨-, -, -, cap, h, h'⟩
    simp [ready, fresh, State.initial, defaultRows, Config.rowMin] at h
    subst h
    exact absurd h' (by decide)
  · rintro ⟨-, -, h, -⟩
    exact absurd h (by decide)
  · rintro ⟨-, h, -⟩
    exact absurd h (by decide)

/-- FrameBytesFollowLayout. -/
theorem witness_frame : (List.replicate 8 0x8001#16).length = 8 := by decide

/-- DimmingUsesLowFourBits: S6. -/
theorem witness_dimming : (31#8).toNat % 16 = (15#8).toNat % 16 := by decide

/-- WireRowsSendTheirEncodedBytes: a device that exists, and the first that does not. -/
theorem witness_wire :
    (Instr.wDimming 5#4).wellFormed = true ∧ encode (.wDimming 5#4) = .wire [0xE5#8] ∧ (fresh 3).Inv ∧
    (fresh 3).inputs.accepts = true ∧ (fresh 3).inputs.selDev < (fresh 3).params.n ∧
    (fresh 3).params.n ≤ ({ Inputs.atReset with selDev := 3 } : Inputs).selDev := by
  refine ⟨by decide, by decide, fresh_inv, by decide, by decide, by decide⟩

/-- The wire rows at a device that does not exist keep the invariant's premise. -/
theorem witness_wire_no_device :
    shows State.events (exec .wPowerOn { fresh 3 with inputs := { Inputs.atReset with selDev := 3 } }) =
      some [] := by decide

/-- InitByModeAndAllocation, PreInitWritesAreLost: each clause's mode and inputs. -/
theorem witness_init :
    (fresh 3).Inv ∧ (fresh 3).mode = .uninitialized ∧ (fresh 3).inputs.allocOk = true ∧
    (fresh 3).inputs.accepts = true ∧ (disabled 3).Inv ∧ (disabled 3).mode ≠ .uninitialized := by
  refine ⟨fresh_inv, by decide, by decide, by decide, disabled_inv, by decide⟩

/-- The failing allocation of InitByModeAndAllocation, on a state that meets the invariant. -/
theorem witness_init_fails :
    ({ fresh 3 with inputs := { Inputs.atReset with allocOk := false } } : State).Inv ∧
    ({ fresh 3 with inputs := { Inputs.atReset with allocOk := false } } : State).inputs.allocOk = false :=
  ⟨⟨by decide, by decide, by decide, by decide, by decide, by decide, by decide, by decide, by decide,
    ⟨[], rfl, by simp⟩, rfl, by simp [fresh, State.initial]⟩, rfl⟩

/-- SetBrightnessSendsToEachTarget, FlushSendsEachTargetSlice. -/
theorem witness_send :
    (ready 3 []).addr.length = (ready 3 []).params.n ∧ (ready 3 []).inputs.accepts = true ∧
    (ready 3 []).mode = .ready ∧ (fresh 3).addr.length = (fresh 3).params.n ∧ (fresh 3).mode ≠ .ready := by
  decide

/-- RepeatedFlushIsIdentical: C15. -/
theorem witness_flush_twice :
    shows State.events (exec (.flush false 0#8) (ready 1 [])) = some (txn 0x70#8 zeroFrame) := by decide

/-- FlushReadsOnlyItsDevice: two states that differ in the other devices' words, addresses and capacities. -/
theorem witness_flush_reads :
    let s := ready 3 [(0, 1#16), (8, 5#16)]
    let s' := { ready 3 [(8, 5#16), (23, 7#16)] with addr := [0x77#8, 0x71#8, 0x70#8], rows := [16#5, 8#5, 12#5] }
    s.params.n = s'.params.n ∧ s.mode = s'.mode ∧ s.inputs.accepts = true ∧ s'.inputs.accepts = true ∧
    s.addr[(1#8).toNat]? = s'.addr[(1#8).toNat]? ∧
    ∀ c, c < 8 → memRead s ((1#8).toNat * 8 + c) = memRead s' ((1#8).toNat * 8 + c) := by
  decide

/-- OutputSizePerCommand, BroadcastIsAscendingSequence: each mode. -/
theorem witness_size :
    (fresh 3).Inv ∧ (fresh 3).mode = .uninitialized ∧ (fresh 3).mode ≠ .ready ∧
    (ready 3 [(23, 0x8001#16)]).Inv ∧ (ready 3 [(23, 0x8001#16)]).mode = .ready ∧
    (ready 3 [(23, 0x8001#16)]).inputs.accepts = true := by
  refine ⟨fresh_inv, by decide, by decide, ready_inv, by decide, by decide⟩

/-- SettersIgnoreModeAndBuffer: an instruction of each kind. -/
theorem witness_setters :
    (∃ dev addr, Instr.setAddress 1#8 0x75#8 = .setAddress dev addr) ∧
    (∃ dev rows, Instr.setRowCapacity 1#8 9#8 = .setRowCapacity dev rows) := ⟨⟨_, _, rfl⟩, ⟨_, _, rfl⟩⟩

/-- AssembledWordsDecode, PseudoCommandsExpand: P3's line, and UPDATE_LED's two parts. -/
theorem witness_assemble :
    Assembler.assemble (.flush (some 0)) = some [.command 0x68000000#32] ∧
    Assembler.assemble (.setLed (some 0) 12 0 1) = some [.command 0x4C000C00#32] := by decide

end Sys2Proof.Tests
end

/-! PROOFS. The family of spec/00_scope.md: construction bounds `N` and no step changes it (R6), the
reference reset state, and the step lemma of the invariant. The invariant is shown once per operation on the
state, then per effect of an instruction, then for the step. -/

namespace Sys2Proof.Machine

/-! ### Construction (R6, R240) -/

theorem construct_of_legal {p : Params} (h : p.legal) : construct p = .ok (State.initial p) := if_pos h

theorem construct_of_not_legal {p : Params} (h : ¬ p.legal) : construct p = .error (.deviceCount p.n) :=
  if_neg h

theorem params_legal_iff (p : Params) : p.legal ↔ 1 ≤ p.n ∧ p.n ≤ 8 := Iff.rfl

theorem reference_legal : Params.reference.legal := by decide

/-! ### What every step leaves -/

/-- No step changes the construction parameters (R6, R11). -/
theorem step_params {s t : State} (h : step s = .next t) : t.params = s.params := by
  rcases step_cases h with ⟨-, rfl⟩ | ⟨r, rest, i, -, -, -, heff⟩ | ⟨r, rest, w, -, -, rfl⟩
  · rfl
  · simpa using heff.frame.1
  · simp

/-! ### The operations keep the invariant -/

section Operations

variable {s : State} (h : s.Inv)
include h

theorem accept_inv (r : Request) (rest : List Request) : (accept r rest s).Inv :=
  { h with response_last := by simp }

theorem refuse_inv (r : RefuseReason) : (refuse r s).Inv :=
  { h with refused_reasons := by simp }

theorem respond_inv (v : Bool) : (respond v s).Inv :=
  { h with response_last := by simp }

/-- Output of whole legal transactions keeps the stream framed (R155). -/
theorem emitted_inv {es : List Event} (hes : Framed es) :
    State.Inv { s with events := s.events ++ es } :=
  { h with events_framed := h.events_framed.append hes }

/-- Entry into Disabled leaves the buffer unallocated (R40, R182). -/
theorem disable_inv (hm : s.mode = .uninitialized) : State.Inv { s with mode := .disabled } :=
  { h with alloc_ready := by simp [h.alloc_ready, hm] }

/-- Allocation gives an empty buffer and enters Ready in the same step (R40, R41). -/
theorem allocate_inv : (allocate s).Inv :=
  { h with
    alloc_ready := by simp
    fb_wf := by simp [Memory.wf]
    fb_domain := by simp
    fb_unallocated := by simp }

/-- A legal entry put in the address table keeps its length and its entries' legality (R35). -/
theorem setAddr_inv (d : Nat) {a : Byte} (ha : addrLegal a = true) :
    State.Inv { s with addr := s.addr.set d a } :=
  { h with
    addr_length := by simpa using h.addr_length
    addr_legal := fun b hb => by
      rcases List.mem_or_eq_of_mem_set hb with hb | rfl
      · exact h.addr_legal b hb
      · exact ha }

/-- A legal entry put in the row-capacity table keeps its length and its entries' legality (R36). -/
theorem setRows_inv (d : Nat) {cap : BitVec 5} (hc : rowsLegal cap.toNat = true) :
    State.Inv { s with rows := s.rows.set d cap } :=
  { h with
    rows_length := by simpa using h.rows_length
    rows_legal := fun r hr => by
      rcases List.mem_or_eq_of_mem_set hr with hr | rfl
      · exact h.rows_legal r hr
      · exact hc }

/-- In Ready the buffer may take any canonical contents within its range (R40, R41). -/
theorem withFb_inv (hm : s.mode = .ready) {t : State} (hst : SameButFb s t) (hwf : t.fb.wf)
    (hdom : ∀ c ∈ t.fb, c.1 < Config.cols * s.params.n) : t.Inv := by
  have halloc : s.alloc = .allocated := h.alloc_ready.mpr hm
  rw [hst]
  exact { h with
    fb_wf := hwf
    fb_domain := hdom
    fb_unallocated := by simp [halloc] }

theorem memWrite_inv (hm : s.mode = .ready) (i : Nat) (v : Word) : (memWrite s i v).Inv := by
  obtain ⟨hwf, hdom⟩ := memWrite_fb_keeps h.fb_wf h.fb_domain i v
  exact withFb_inv h hm (memWrite_sameButFb s i v) hwf hdom

theorem foldl_clearSlice_inv (hm : s.mode = .ready) (ds : List Nat) : (ds.foldl clearSlice s).Inv :=
  withFb_inv h hm (foldl_clearSlice_sameButFb ds s) (foldl_clearSlice_spec s h.fb_wf ds).1
    (foldl_clearSlice_domain s h.fb_wf h.fb_domain ds)

end Operations

/-! ### Instructions and steps keep the invariant -/

/-- The operand byte of a legal capacity fits the table's 5 bits (R36, R111). -/
theorem rowsLegal_setWidth {rows : Byte} (hr : rowsLegal rows.toNat = true) :
    rowsLegal (rows.setWidth 5).toNat = true := by
  have hlt : rows.toNat < 2 ^ 5 := by
    simp [rowsLegal, Config.rowCaps] at hr
    omega
  rwa [BitVec.toNat_setWidth, Nat.mod_eq_of_lt hlt]

theorem Effect.inv {i : Instr} {s t : State} (heff : Effect i s t) (hw : i.wellFormed = true)
    (h : s.Inv) : t.Inv := by
  cases heff with
  | nothing => exact h
  | reInit => exact refuse_inv h _
  | allocFails _ hm => exact disable_inv h hm
  | configures =>
    exact emitted_inv (allocate_inv h) (Framed.flatMap fun d _ => initDeviceEvents_framed h.addr_legal d)
  | clears _ _ _ hm => exact foldl_clearSlice_inv h hm _
  | setsBit _ _ _ _ _ _ v hm => exact memWrite_inv h hm _ v
  | answers _ _ _ _ _ v => exact respond_inv h v
  | rejects => exact respond_inv h false
  | setsAddress _ _ _ _ ha => exact respond_inv (setAddr_inv h _ ha) true
  | setsRows _ _ _ _ hr => exact setRows_inv h _ (rowsLegal_setWidth hr)
  | sends _ _ ts f _ hf => exact emitted_inv h (Framed.mux h.addr_legal ts (hf hw))

theorem step_inv {s t : State} (h : s.Inv) (hst : step s = .next t) : t.Inv := by
  rcases step_cases hst with ⟨-, rfl⟩ | ⟨r, rest, i, -, -, hw, heff⟩ | ⟨r, rest, w, -, -, rfl⟩
  · exact h
  · exact heff.inv hw (accept_inv h r rest)
  · exact refuse_inv (accept_inv h r rest) _

/-! ### The obligations -/

/-- Settles O15: each effect a step can have is an operation that keeps the invariant. -/
theorem stepKeepsInvariant : Obligations.StepKeepsInvariant := fun _ _ => step_inv

/-- Settles O12: `construct` tests `N`, and every effect of a step has the parameters in its frame. -/
theorem deviceCountBoundedAndFixed : Obligations.DeviceCountBoundedAndFixed := by
  refine ⟨fun p hmin hmax => ⟨State.initial p, construct_of_legal ⟨hmin, hmax⟩, rfl⟩,
    fun p hp => construct_of_not_legal fun hl => ?_, fun _ _ => step_params⟩
  have := (params_legal_iff p).mp hl
  omega

/-- Settles O13: the reference parameters are legal, so their construction is `State.initial`. -/
theorem resetIsReferenceConstruction : Obligations.ResetIsReferenceConstruction :=
  ⟨construct_of_legal reference_legal, rfl, rfl, rfl⟩

end Sys2Proof.Machine

/-! PROOFS. The family of spec/10_state.md: which step writes which piece of the state (R45), the transitions
of `Mode` (R34), the mark (R43), the position (R31), Disabled (R212), and the invariant at construction. Each
fact is shown for an instruction's effect first and then carried to the step. -/

namespace Sys2Proof.Machine

/-! ### Construction meets the invariant (R240) -/

/-- A successful construction is the initial state of legal parameters (R6, R240). -/
theorem construct_ok {p : Params} {s : State} (h : construct p = .ok s) :
    p.legal ∧ s = State.initial p := by
  by_cases hl : p.legal
  · rw [construct_of_legal hl] at h
    cases h
    exact ⟨hl, rfl⟩
  · rw [construct_of_not_legal hl] at h
    cases h

/-- The default addresses of at most eight devices are accepted ones (R9, R35). -/
theorem addrLegal_of_mem_defaultAddr {n : Nat} (hn : n ≤ Config.maxDevices) {a : Byte}
    (ha : a ∈ defaultAddr n) : addrLegal a = true := by
  have hall : ∀ d < 8, addrLegal (Config.addrBase + BitVec.ofNat 8 d) = true := by decide
  obtain ⟨d, hd, rfl⟩ := List.mem_map.mp ha
  exact hall d (Nat.lt_of_lt_of_le (List.mem_range.mp hd) hn)

/-- The default capacity is an accepted one (R10, R36). -/
theorem rowsLegal_of_mem_defaultRows {n : Nat} {r : BitVec 5} (hr : r ∈ defaultRows n) :
    rowsLegal r.toNat = true := by
  rw [List.eq_of_mem_replicate hr]
  decide

theorem initial_inv {p : Params} (hp : p.legal) : (State.initial p).Inv where
  params_legal := hp
  addr_length := by simp [defaultAddr]
  rows_length := by simp [defaultRows]
  addr_legal _ ha := addrLegal_of_mem_defaultAddr hp.2 ha
  rows_legal _ hr := rowsLegal_of_mem_defaultRows hr
  alloc_ready := by simp
  fb_wf := by simp [Memory.wf]
  fb_domain := by simp
  fb_unallocated := by simp
  events_framed := Framed.nil
  refused_reasons := rfl
  response_last := by simp

/-! ### What an instruction's effect writes (R45) -/

section Effects

variable {i : Instr} {s t : State} (heff : Effect i s t)
include heff

/-- The two transitions of `Mode`, by the sampled `alloc_ok` (R34, R182). -/
theorem Effect.mode_change (hne : t.mode ≠ s.mode) :
    i = .init ∧ s.mode = .uninitialized ∧
      ((s.inputs.allocOk = true ∧ t.mode = .ready) ∨
        (s.inputs.allocOk = false ∧ t.mode = .disabled)) := by
  cases heff with
  | allocFails _ hm ha => exact ⟨rfl, hm, .inr ⟨ha, rfl⟩⟩
  | configures _ hm ha => exact ⟨rfl, hm, .inl ⟨ha, rfl⟩⟩
  | _ => simp at hne

theorem Effect.alloc_change (hne : t.alloc ≠ s.alloc) : i = .init := by
  cases heff with
  | configures => rfl
  | _ => simp at hne

theorem Effect.addr_change (hne : t.addr ≠ s.addr) : ∃ dev addr, i = .setAddress dev addr := by
  cases heff with
  | setsAddress dev addr => exact ⟨dev, addr, rfl⟩
  | _ => simp at hne

theorem Effect.rows_change (hne : t.rows ≠ s.rows) : ∃ dev rows, i = .setRowCapacity dev rows := by
  cases heff with
  | setsRows dev rows => exact ⟨dev, rows, rfl⟩
  | _ => simp at hne

theorem Effect.fb_change (hne : t.fb ≠ s.fb) :
    i = .init ∨ (∃ dsel dev, i = .clear dsel dev) ∨
      ∃ dsel dev state row col, i = .setLed dsel dev state row col := by
  cases heff with
  | configures => exact .inl rfl
  | clears dsel dev => exact .inr (.inl ⟨dsel, dev, rfl⟩)
  | setsBit dsel dev state row col => exact .inr (.inr ⟨dsel, dev, state, row, col, rfl⟩)
  | _ => simp at hne

/-- An effect leaves the mark and its reasons, or is INIT's refusal (R43, R184). -/
theorem Effect.mark_cases :
    (t.refused = s.refused ∧ t.refusals = s.refusals) ∨ (i = .init ∧ t = refuse .reInit s) := by
  cases heff with
  | reInit => exact .inr ⟨rfl, rfl⟩
  | _ => simp

/-- In Disabled no effect reaches `Mode`, `Alloc` or `FB` (R34, R130, R212). -/
theorem Effect.disabled_frame (hd : s.mode = .disabled) :
    t.mode = s.mode ∧ t.alloc = s.alloc ∧ t.fb = s.fb := by
  cases heff with
  | allocFails _ hm => simp [hd] at hm
  | configures _ hm => simp [hd] at hm
  | clears _ _ _ hm => simp [hd] at hm
  | setsBit _ _ _ _ _ _ _ hm => simp [hd] at hm
  | _ => simp

end Effects

/-! ### What a step writes -/

section Steps

variable {s t : State} (h : step s = .next t)
include h

/-- Accepting a request moves the stream and the position on by one (R31). -/
theorem step_pos_pending {r : Request} {rest : List Request} (hp : s.pending = r :: rest) :
    t.pos = s.pos + 1 ∧ t.pending = rest := by
  rcases step_cases h with ⟨hnil, -⟩ | ⟨r', rest', i, hp', -, -, heff⟩ | ⟨r', rest', w, hp', -, rfl⟩
  · simp [hp] at hnil
  · cases hp.symm.trans hp'
    obtain ⟨-, hpending, hpos, -⟩ := heff.frame
    exact ⟨hpos, hpending⟩
  · cases hp.symm.trans hp'
    simp

/-- A step that changes what neither acceptance nor `refuse` writes has run an instruction whose effect
changes it. -/
theorem step_change {α : Type} {f : State → α} (hacc : ∀ r rest u, f (accept r rest u) = f u)
    (href : ∀ r u, f (refuse r u) = f u) (hne : f t ≠ f s) :
    ∃ r rest i, s.pending = r :: rest ∧ decode r.code = .ok i ∧ Effect i (accept r rest s) t ∧
      f t ≠ f (accept r rest s) := by
  rcases step_cases h with ⟨-, rfl⟩ | ⟨r, rest, i, hp, hdec, -, heff⟩ | ⟨r, rest, w, -, -, rfl⟩
  · exact absurd rfl hne
  · exact ⟨r, rest, i, hp, hdec, heff, by rwa [hacc]⟩
  · exact absurd ((href _ _).trans (hacc r rest s)) hne

theorem step_mode_change (hne : t.mode ≠ s.mode) :
    s.mode = .uninitialized ∧
    ∃ r rest, s.pending = r :: rest ∧ decode r.code = .ok .init ∧
      ((r.inputs.allocOk = true ∧ t.mode = .ready) ∨
        (r.inputs.allocOk = false ∧ t.mode = .disabled)) := by
  obtain ⟨r, rest, i, hp, hdec, heff, hne⟩ := step_change h accept_mode refuse_mode hne
  obtain ⟨rfl, hm, hto⟩ := heff.mode_change hne
  exact ⟨hm, r, rest, hp, hdec, hto⟩

/-- A step leaves the mark and its reasons, or sets the mark and adds the reason of an INIT or of a
reserved word (R43, R94, R184). -/
theorem step_mark_cases :
    (t.refused = s.refused ∧ t.refusals = s.refusals) ∨
    ∃ r rest reason, s.pending = r :: rest ∧
      (decode r.code = .ok .init ∨ ∃ w, decode r.code = .error (.reservedCommand w)) ∧
      t.refused = true ∧ t.refusals = s.refusals ++ [reason] := by
  rcases step_cases h with ⟨-, rfl⟩ | ⟨r, rest, i, hp, hdec, -, heff⟩ | ⟨r, rest, w, hp, hdec, rfl⟩
  · exact .inl ⟨rfl, rfl⟩
  · rcases heff.mark_cases with hsame | ⟨rfl, rfl⟩
    · exact .inl hsame
    · exact .inr ⟨r, rest, _, hp, .inl hdec, rfl, rfl⟩
  · exact .inr ⟨r, rest, _, hp, .inr ⟨w, hdec⟩, rfl, rfl⟩

theorem step_disabled_frame (hd : s.mode = .disabled) :
    t.mode = s.mode ∧ t.alloc = s.alloc ∧ t.fb = s.fb := by
  rcases step_cases h with ⟨-, rfl⟩ | ⟨r, rest, i, -, -, -, heff⟩ | ⟨r, rest, w, -, -, rfl⟩
  · exact ⟨rfl, rfl, rfl⟩
  · exact heff.disabled_frame hd
  · exact ⟨rfl, rfl, rfl⟩

end Steps

/-! ### The buffer commands where the buffer is not usable (R130, R186) -/

section NotReady

variable {s : State} (hm : s.mode ≠ .ready)
include hm

theorem bufferUsable_of_not_ready : bufferUsable s = false := by simpa [bufferUsable] using hm

theorem exec_clear_of_not_ready (dsel : Bool) (dev : Byte) : exec (.clear dsel dev) s = .next s := by
  simp [exec, execClear, bufferUsable_of_not_ready hm]

theorem exec_setLed_of_not_ready (dsel : Bool) (dev : Byte) (state : Bool) (row col : Byte) :
    exec (.setLed dsel dev state row col) s = .next s := by
  simp [exec, execSetLed, bufferUsable_of_not_ready hm]

theorem exec_getLed_of_not_ready (dsel : Bool) (dev row col : Byte) :
    exec (.getLed dsel dev row col) s = .next (respond false s) := by
  simp [exec, execGetLed, bufferUsable_of_not_ready hm]

theorem exec_flush_of_not_ready (dsel : Bool) (dev : Byte) : exec (.flush dsel dev) s = .next s := by
  simp [exec, execFlush, bufferUsable_of_not_ready hm]

end NotReady

/-! ### The obligations -/

/-- Settles O7: acceptance advances the position, and every effect has position and stream in its frame. -/
theorem positionAdvancesByOne : Obligations.PositionAdvancesByOne :=
  fun _ _ _ _ hp h => step_pos_pending h hp

/-- Settles O16: of the effects only INIT's two leave `Mode` other than it was. -/
theorem modeTransitionsOnlyByInit : Obligations.ModeTransitionsOnlyByInit := by
  refine ⟨fun p s hs => ?_, fun _ _ => step_mode_change⟩
  obtain ⟨-, rfl⟩ := construct_ok hs
  rfl

/-- Settles O17: a step leaves the mark with its reasons, or sets it and adds one. -/
theorem refusedMarkPersists : Obligations.RefusedMarkPersists := by
  refine ⟨fun p s hs => ?_, fun _ _ => rfl, fun s t h hset => ?_, fun s t h hclear hset => ?_⟩
  · obtain ⟨-, rfl⟩ := construct_ok hs
    rfl
  · rcases step_mark_cases h with ⟨hsame, -⟩ | ⟨-, -, -, -, -, hmark, -⟩
    · rw [hsame, hset]
    · exact hmark
  · rcases step_mark_cases h with ⟨hsame, -⟩ | ⟨-, -, reason, -, -, -, hadd⟩
    · simp [hsame, hclear] at hset
    · exact ⟨reason, hadd⟩

/-- Settles O20: a changed field names the effect that changed it, and the effect its command. -/
theorem stateWrittenOnlyByItsCommands : Obligations.StateWrittenOnlyByItsCommands := by
  intro s t h
  refine ⟨fun hne => ?_, fun hne => ?_, fun hne => ?_, fun hne => ?_, fun hne => ?_, fun hne => ?_⟩
  · obtain ⟨-, r, rest, hp, hdec, -⟩ := step_mode_change h hne
    exact ⟨r, rest, hp, hdec⟩
  · obtain ⟨r, rest, i, hp, hdec, heff, hne⟩ := step_change h accept_alloc refuse_alloc hne
    obtain rfl := heff.alloc_change hne
    exact ⟨r, rest, hp, hdec⟩
  · obtain ⟨r, rest, i, hp, hdec, heff, hne⟩ := step_change h accept_addr refuse_addr hne
    obtain ⟨dev, addr, rfl⟩ := heff.addr_change hne
    exact ⟨dev, addr, r, rest, hp, hdec⟩
  · obtain ⟨r, rest, i, hp, hdec, heff, hne⟩ := step_change h accept_rows refuse_rows hne
    obtain ⟨dev, rows, rfl⟩ := heff.rows_change hne
    exact ⟨dev, rows, r, rest, hp, hdec⟩
  · obtain ⟨r, rest, i, hp, hdec, heff, hne⟩ := step_change h accept_fb refuse_fb hne
    rcases heff.fb_change hne with rfl | ⟨dsel, dev, rfl⟩ | ⟨dsel, dev, state, row, col, rfl⟩
    · exact .inl ⟨r, rest, hp, hdec⟩
    · exact .inr (.inl ⟨dsel, dev, r, rest, hp, hdec⟩)
    · exact .inr (.inr ⟨dsel, dev, state, row, col, r, rest, hp, hdec⟩)
  · rcases step_mark_cases h with ⟨hsame, -⟩ | ⟨r, rest, -, hp, hinit | ⟨w, hres⟩, -, -⟩
    · exact absurd hsame hne
    · exact .inl ⟨r, rest, hp, hinit⟩
    · exact .inr ⟨r, rest, w, hp, hres⟩

/-- Settles O21: the effects that write `Mode`, `Alloc` or `FB` ask for another mode, and the buffer is not
usable. -/
theorem disabledStaysInert : Obligations.DisabledStaysInert := by
  refine ⟨fun s t hd h => ?_, fun s dsel dev row col state hd => ?_⟩
  · simpa [hd] using step_disabled_frame h hd
  · have hm : s.mode ≠ .ready := by simp [hd]
    exact ⟨exec_clear_of_not_ready hm dsel dev, exec_setLed_of_not_ready hm dsel dev state row col,
      exec_flush_of_not_ready hm dsel dev, exec_getLed_of_not_ready hm dsel dev row col⟩

/-- Settles O14: a construction is the initial state of legal parameters, and so is `State.reset`. -/
theorem constructionMeetsInvariant : Obligations.ConstructionMeetsInvariant := by
  refine ⟨fun p s hs => ?_, initial_inv reference_legal⟩
  obtain ⟨hp, rfl⟩ := construct_ok hs
  exact initial_inv hp

end Sys2Proof.Machine

/-! PROOFS. The family of spec/20_memory.md: the flat index (R62), what FLUSH sends and that it sends it again
(R68, R186), the broadcast forms as sequences over the devices (R71, R156), and INIT after the writes before it
(R252). -/

namespace Sys2Proof.Machine

/-! ### The flat index (R62) -/

theorem fbIndex_eq (d c : Nat) : fbIndex d c = d * 8 + c := rfl

/-- For operands of three bits the product and sum are a concatenation (R62). -/
theorem fbIndex_toNat_append (d c : BitVec 3) : fbIndex d.toNat c.toNat = (d ++ c).toNat := by
  rw [fbIndex_eq, BitVec.toNat_append, ← Nat.shiftLeft_add_eq_or_of_lt c.isLt, Nat.shiftLeft_eq]

/-! ### The targets of a command (R156) -/

theorem lt_of_mem_targets {n d : Nat} {dsel : Bool} {dev : Byte} (h : d ∈ targets n dsel dev) : d < n := by
  cases dsel with
  | false => exact List.mem_range.mp h
  | true =>
    by_cases hdev : dev.toNat < n
    · obtain rfl : d = dev.toNat := by simpa [targets, hdev] using h
      exact hdev
    · simp [targets, hdev] at h

/-- The selector of a device of a legal block selects that device (R6, R156). -/
theorem targets_ofNat {n d : Nat} (hn : n ≤ Config.maxDevices) (hd : d < n) :
    targets n true (BitVec.ofNat 8 d) = [d] := by
  have hlt : d < 256 := by
    unfold Config.maxDevices at hn
    omega
  simp [targets, Nat.mod_eq_of_lt hlt, hd]

/-! ### What the multiplexer sends to devices that have an entry (R157) -/

theorem txnFor_busAddr {s : State} {d : Nat} (hd : d < s.addr.length) (bs : List Byte) :
    txnFor s d bs = txn (s.busAddr d) bs := by
  simp [txnFor, State.busAddr, hd]

theorem mux_eq_flatMap_txn {s : State} {ts : List Nat} (hts : ∀ d ∈ ts, d < s.addr.length)
    (f : Nat → List Byte) : mux s ts f = ts.flatMap fun d => txn (s.busAddr d) (f d) :=
  List.flatMap_congr fun d hd => txnFor_busAddr (hts d hd) (f d)

/-! ### The commands by mode (R130, R133, R185, R186) -/

/-- What FLUSH sends in Ready: each target's slice as one frame (R186). -/
def flushEvents (s : State) (dsel : Bool) (dev : Byte) : List Event :=
  mux s (targets s.params.n dsel dev) fun d => encFrame (slice s d)

theorem bufferUsable_of_ready {s : State} (hm : s.mode = .ready) : bufferUsable s = true := by
  simp [bufferUsable, hm]

theorem exec_flush_of_ready {s : State} (hm : s.mode = .ready) (dsel : Bool) (dev : Byte) :
    exec (.flush dsel dev) s = emit (flushEvents s dsel dev) s :=
  if_pos (bufferUsable_of_ready hm)

theorem exec_clear_of_ready {s : State} (hm : s.mode = .ready) (dsel : Bool) (dev : Byte) :
    exec (.clear dsel dev) s = .next ((targets s.params.n dsel dev).foldl clearSlice s) :=
  if_pos (bufferUsable_of_ready hm)

theorem exec_setBrightness (s : State) (dsel : Bool) (dev level : Byte) :
    exec (.setBrightness dsel dev level) s =
      emit (mux s (targets s.params.n dsel dev) fun _ => encBrightness level) s := rfl

/-! ### FLUSH again (R68) -/

/-- Where an emission completed, the same emission completes again. -/
theorem emit_again {es : List Event} {s t : State} (h : emit es s = .next t) :
    emit es t = .next { t with events := t.events ++ es } := by
  rcases emit_cases es t with hnext | ⟨hne, hacc, -⟩
  · exact hnext
  · have hs : s.inputs.accepts = false := by rwa [emit_next h] at hacc
    rw [emit_stuck hs hne] at h
    cases h

/-! ### Outcomes over a list of devices (R156) -/

section Sequences

variable {F : Nat → State → Host.Outcome State Fault Refusal} {l : List Nat}

/-- Operations that emit, each what it would emit from the first state, are together one emission. -/
theorem foldl_andThen_emit {s : State} {g : Nat → List Event} (a : List Event)
    (h : ∀ d ∈ l, ∀ es, F d { s with events := es } = emit (g d) { s with events := es }) :
    l.foldl (fun o d => andThen o (F d)) (emit a s) = emit (a ++ l.flatMap g) s := by
  induction l generalizing a with
  | nil => simp
  | cons d l ih =>
    rw [List.foldl_cons, andThen_emit (h d (by simp) _), ih _ fun e he => h e (by simp [he]),
      List.flatMap_cons, List.append_assoc]

/-- The commands of the one-device form from device 0 to `N - 1` emit what the broadcast form emits. -/
theorem foldl_andThen_mux {s : State} {f : Nat → List Byte}
    (h : ∀ d ∈ l, ∀ es, F d { s with events := es } = emit (mux s [d] f) { s with events := es }) :
    l.foldl (fun o d => andThen o (F d)) (.next s) = emit (mux s l f) s := by
  simp only [mux_single] at h
  exact foldl_andThen_emit [] h

end Sequences

/-- CLEAR of one device after the other clears their slices in that order (R133). -/
theorem foldl_andThen_clear {l : List Nat} {s : State} (hm : s.mode = .ready)
    (hn : s.params.n ≤ Config.maxDevices) (hl : ∀ d ∈ l, d < s.params.n) :
    l.foldl (fun o d => andThen o (exec (.clear true (BitVec.ofNat 8 d)))) (.next s) =
      .next (l.foldl clearSlice s) := by
  induction l generalizing s with
  | nil => rfl
  | cons d l ih =>
    have hd : exec (.clear true (BitVec.ofNat 8 d)) s = .next (clearSlice s d) := by
      rw [exec_clear_of_ready hm, targets_ofNat hn (hl d (by simp)), List.foldl_cons, List.foldl_nil]
    rw [List.foldl_cons, andThen_next, hd, List.foldl_cons]
    exact ih (by simpa using hm) (by simpa using hn) fun e he => by simpa using hl e (by simp [he])

/-! ### A broadcast, command by command (R71, R133, R156, R185, R186) -/

section Broadcast

variable {s : State} (hn : s.params.n ≤ Config.maxDevices)
include hn

theorem exec_clear_broadcast (dev : Byte) :
    exec (.clear false dev) s =
      (List.range s.params.n).foldl
        (fun o d => andThen o (exec (.clear true (BitVec.ofNat 8 d)))) (.next s) := by
  by_cases hm : s.mode = .ready
  · rw [exec_clear_of_ready hm, foldl_andThen_clear hm hn fun d hd => List.mem_range.mp hd]
    rfl
  · rw [exec_clear_of_not_ready hm]
    exact (List.foldl_fixed' (fun d => exec_clear_of_not_ready hm true (BitVec.ofNat 8 d)) _).symm

theorem exec_setBrightness_broadcast (dev level : Byte) :
    exec (.setBrightness false dev level) s =
      (List.range s.params.n).foldl
        (fun o d => andThen o (exec (.setBrightness true (BitVec.ofNat 8 d) level))) (.next s) := by
  rw [exec_setBrightness]
  refine (foldl_andThen_mux fun d hd es => ?_).symm
  rw [exec_setBrightness, targets_ofNat hn (List.mem_range.mp hd)]
  rfl

theorem exec_flush_broadcast (dev : Byte) :
    exec (.flush false dev) s =
      (List.range s.params.n).foldl
        (fun o d => andThen o (exec (.flush true (BitVec.ofNat 8 d)))) (.next s) := by
  by_cases hm : s.mode = .ready
  · rw [exec_flush_of_ready hm]
    refine (foldl_andThen_mux fun d hd es => ?_).symm
    rw [exec_flush_of_ready (by simpa using hm), flushEvents, targets_ofNat hn (List.mem_range.mp hd)]
    rfl
  · rw [exec_flush_of_not_ready hm]
    exact (List.foldl_fixed' (fun d => exec_flush_of_not_ready hm true (BitVec.ofNat 8 d)) _).symm

end Broadcast

/-! ### INIT from Uninitialized (R182, R183) -/

/-- INIT that allocates, with an accepting transport, leaves the allocated state and what it sent. -/
theorem exec_init_of_uninitialized {s : State} (hm : s.mode = .uninitialized)
    (ha : s.inputs.allocOk = true) (hacc : s.inputs.accepts = true) :
    exec .init s = .next { allocate s with
      events := s.events ++ (List.range s.params.n).flatMap (initDeviceEvents s) } :=
  (execInit_uninitialized hm ha).trans (emit_accepts (by simpa using hacc) _)

/-- An empty listing reads 0 at every index (R41). -/
theorem memRead_of_fb_nil {s : State} (h : s.fb = []) (i : Nat) : memRead s i = 0#16 := by
  simp [memRead, h]

theorem fbExists_of_allocated {s : State} (h : s.alloc = .allocated) {i : Nat} (hi : i < 8 * s.params.n) :
    fbExists s i = true := by
  simp [fbExists, h, Config.cols, hi]

/-! ### The obligations -/

/-- Settles O40: FLUSH reads no port, so on the state with its events appended it emits them again, and the
transport that took them the first time still accepts. -/
theorem repeatedFlushIsIdentical : Obligations.RepeatedFlushIsIdentical := by
  intro s t dsel dev h
  by_cases hm : s.mode = .ready
  · rw [exec_flush_of_ready hm] at h
    obtain rfl := emit_next h
    refine ⟨flushEvents s dsel dev, rfl, ?_⟩
    rw [exec_flush_of_ready (by simpa using hm)]
    exact emit_again h
  · have hsame := exec_flush_of_not_ready hm dsel dev
    cases hsame.symm.trans h
    exact ⟨[], by simp, by simpa using hsame⟩

/-- Settles O43: a one-device command clears its own slice, or sends what it would send before the others. -/
theorem broadcastIsAscendingSequence : Obligations.BroadcastIsAscendingSequence := by
  intro s dev level hinv _
  have hn := hinv.params_legal.2
  exact ⟨exec_clear_broadcast hn dev, exec_setBrightness_broadcast hn dev level,
    exec_flush_broadcast hn dev⟩

/-- Settles O45: in Uninitialized the buffer is not usable, and INIT allocates an empty listing. -/
theorem preInitWritesAreLost : Obligations.PreInitWritesAreLost := by
  intro s dsel dev row col state _ hun
  have hm : s.mode ≠ .ready := by simp [hun]
  refine ⟨exec_setLed_of_not_ready hm dsel dev state row col, exec_clear_of_not_ready hm dsel dev,
    exec_getLed_of_not_ready hm dsel dev row col, exec_flush_of_not_ready hm dsel dev,
    fun ha hacc => ⟨_, exec_init_of_uninitialized hun ha hacc, rfl, fun i hi => ?_⟩⟩
  exact ⟨fbExists_of_allocated rfl hi, memRead_of_fb_nil rfl i⟩

/-- Settles O27: `COLS` is 8, and three bits of column lie below the device's. -/
theorem flatIndexConcatenatesDeviceAndColumn : Obligations.FlatIndexConcatenatesDeviceAndColumn :=
  ⟨fbIndex_eq, fbIndex_toNat_append⟩

/-- Settles O39: every target has an address entry, so the multiplexer sends each its frame. -/
theorem flushSendsEachTargetSlice : Obligations.FlushSendsEachTargetSlice := by
  intro s dsel dev hlen
  refine ⟨fun hm hacc => ?_, fun hm => exec_flush_of_not_ready hm dsel dev⟩
  have hts : ∀ d ∈ targets s.params.n dsel dev, d < s.addr.length := fun d hd =>
    hlen ▸ lt_of_mem_targets hd
  rw [exec_flush_of_ready hm, emit_accepts hacc, flushEvents, mux_eq_flatMap_txn hts]
  rfl

end Sys2Proof.Machine

/-! PROOFS. The family of spec/30_encoding.md: decode and encode are inverse (R82 to R87, R96, R97), the
reserved words (R94), the bytes of a frame (R86), the wire rows, and the assembler (R97, R98). A command's row
of R93 is read field by field once; the round trips and the reserved words follow from that reading. -/

namespace Sys2Proof

/-! ### A command word is its seven fields (R90) -/

/-- OP, bits 31:28 (R90). -/
def fieldOp (w : CommandWord) : BitVec 4 := w.extractLsb' 28 4

/-- RSV, bits 25:24 (R90). -/
def fieldRsv (w : CommandWord) : BitVec 2 := w.extractLsb' 24 2

theorem getLsbD_eq_of_extractLsb'_eq {w v : CommandWord} {lo len i : Nat}
    (h : w.extractLsb' lo len = v.extractLsb' lo len) (hlo : lo ≤ i) (hi : i < lo + len) :
    w.getLsbD i = v.getLsbD i := by
  have hbit := congrArg (fun f => f.getLsbD (i - lo)) h
  simpa [show i - lo < len by omega, Nat.add_sub_cancel' hlo] using hbit

theorem word_eq_iff_fields {w v : CommandWord} : w = v ↔ fieldOp w = fieldOp v ∧
    fieldRsv w = fieldRsv v ∧ fieldDsel w = fieldDsel v ∧ fieldState w = fieldState v ∧
    fieldDev w = fieldDev v ∧ fieldA w = fieldA v ∧ fieldB w = fieldB v := by
  refine ⟨?_, fun ⟨hop, hrsv, hdsel, hstate, hdev, ha, hb⟩ => BitVec.eq_of_getLsbD_eq fun i hi => ?_⟩
  · rintro rfl
    simp
  · obtain h | h | h | h | rfl | rfl | h : i < 8 ∨ (8 ≤ i ∧ i < 16) ∨ (16 ≤ i ∧ i < 24) ∨
        (24 ≤ i ∧ i < 26) ∨ i = 26 ∨ i = 27 ∨ 28 ≤ i := by omega
    · exact getLsbD_eq_of_extractLsb'_eq hb i.zero_le h
    · exact getLsbD_eq_of_extractLsb'_eq ha h.1 h.2
    · exact getLsbD_eq_of_extractLsb'_eq hdev h.1 h.2
    · exact getLsbD_eq_of_extractLsb'_eq hrsv h.1 h.2
    · exact hstate
    · exact hdsel
    · exact getLsbD_eq_of_extractLsb'_eq hop h hi

/-! ### The rows of R93, field by field -/

/-- OP of a command (R91). -/
def CmdOp.code : CmdOp → BitVec 4
  | .init => 1#4
  | .clear => 2#4
  | .setBrightness => 3#4
  | .setLed => 4#4
  | .getLed => 5#4
  | .flush => 6#4
  | .setAddress => 7#4
  | .setRowCapacity => 8#4

/-- What a command's row of R93 asks of the fields besides OP and RSV. -/
@[simp] def CmdOp.Fixes (w : CommandWord) : CmdOp → Prop
  | .init => fieldState w = false ∧ fieldDsel w = false ∧ fieldDev w = 0#8 ∧ fieldA w = 0#8 ∧ fieldB w = 0#8
  | .clear | .flush => fieldState w = false ∧ fieldA w = 0#8 ∧ fieldB w = 0#8
  | .setBrightness => fieldState w = false ∧ fieldB w = 0#8
  | .setLed => True
  | .getLed => fieldState w = false
  | .setAddress | .setRowCapacity => fieldState w = false ∧ fieldDsel w = true ∧ fieldB w = 0#8

/-- The word is one of the command's, by its fields (R93). -/
def CmdOp.Matches (op : CmdOp) (w : CommandWord) : Prop :=
  fieldOp w = op.code ∧ fieldRsv w = 0#2 ∧ op.Fixes w

/-- A row's mask acts on each field by itself. The row's own fields stay written as bits, so that they compute
on the rows of `cmdRows`. -/
theorem CmdRow.selects_iff_fields {r : CmdRow} {w : CommandWord} : r.selects w = true ↔
    fieldOp w &&& r.mask.extractLsb' 28 4 = r.pattern.extractLsb' 28 4 ∧
    fieldRsv w &&& r.mask.extractLsb' 24 2 = r.pattern.extractLsb' 24 2 ∧
    (fieldDsel w && r.mask.getLsbD 27) = r.pattern.getLsbD 27 ∧
    (fieldState w && r.mask.getLsbD 26) = r.pattern.getLsbD 26 ∧
    fieldDev w &&& r.mask.extractLsb' 16 8 = r.pattern.extractLsb' 16 8 ∧
    fieldA w &&& r.mask.extractLsb' 8 8 = r.pattern.extractLsb' 8 8 ∧
    fieldB w &&& r.mask.extractLsb' 0 8 = r.pattern.extractLsb' 0 8 := by
  rw [selects_iff, word_eq_iff_fields]
  simp only [fieldOp, fieldRsv, fieldDsel, fieldState, fieldDev, fieldA, fieldB,
    BitVec.extractLsb'_and, BitVec.getLsbD_and]

theorem CmdRow.selects_iff_matches {r : CmdRow} (hr : r ∈ cmdRows) {w : CommandWord} :
    r.selects w = true ↔ r.op.Matches w := by
  have mask4 : ∀ x : BitVec 4, x &&& 15#4 = x := fun _ => BitVec.and_allOnes
  have mask2 : ∀ x : BitVec 2, x &&& 3#2 = x := fun _ => BitVec.and_allOnes
  have mask8 : ∀ x : Byte, x &&& 255#8 = x := fun _ => BitVec.and_allOnes
  rw [CmdRow.selects_iff_fields]
  simp only [cmdRows, List.mem_cons, List.not_mem_nil, or_false] at hr
  rcases hr with rfl | rfl | rfl | rfl | rfl | rfl | rfl | rfl <;>
    simp [CmdOp.Matches, CmdOp.code, mask4, mask2, mask8, and_left_comm]

theorem exists_row (op : CmdOp) : ∃ r ∈ cmdRows, r.op = op := by cases op <;> decide

theorem decode_of_matches {op : CmdOp} {w : CommandWord} (h : op.Matches w) :
    decode (.command w) = .ok (op.build w) := by
  obtain ⟨r, hr, rfl⟩ := exists_row op
  exact decodeCommand_of_selects hr ((CmdRow.selects_iff_matches hr).mpr h)

/-- What decoding a command word can answer, by the word's fields. -/
theorem decode_command_cases (w : CommandWord) :
    (∃ op : CmdOp, op.Matches w ∧ decode (.command w) = .ok (op.build w)) ∨
      ((∀ op : CmdOp, ¬ op.Matches w) ∧ decode (.command w) = .error (.reservedCommand w)) := by
  rcases decodeCommand_cases w with ⟨r, hr, hsel, hdec⟩ | ⟨hnone, hdec⟩
  · exact .inl ⟨r.op, (CmdRow.selects_iff_matches hr).mp hsel, hdec⟩
  · refine .inr ⟨fun op h => ?_, hdec⟩
    obtain ⟨r, hr, rfl⟩ := exists_row op
    simpa [hnone r hr] using (CmdRow.selects_iff_matches hr).mpr h

theorem decode_reserved_iff (w : CommandWord) :
    decode (.command w) = .error (.reservedCommand w) ↔ ∀ op : CmdOp, ¬ op.Matches w := by
  rcases decode_command_cases w with ⟨op, hop, hdec⟩ | ⟨hnone, hdec⟩
  · simpa [hdec] using ⟨op, hop⟩
  · simpa [hdec] using hnone

/-! ### Reserved words (R94) -/

/-- The four cases of R94. -/
def ReservedFields (w : CommandWord) : Prop :=
  fieldOp w = 0#4 ∨ 9 ≤ (fieldOp w).toNat ∨ fieldRsv w ≠ 0#2 ∨ (fieldOp w ≠ 4#4 ∧ fieldState w = true) ∨
  (fieldOp w = 1#4 ∧ (fieldDsel w = true ∨ fieldDev w ≠ 0#8 ∨ fieldA w ≠ 0#8 ∨ fieldB w ≠ 0#8)) ∨
  ((fieldOp w = 2#4 ∨ fieldOp w = 6#4) ∧ (fieldA w ≠ 0#8 ∨ fieldB w ≠ 0#8)) ∨
  (fieldOp w = 3#4 ∧ fieldB w ≠ 0#8) ∨
  ((fieldOp w = 7#4 ∨ fieldOp w = 8#4) ∧ (fieldDsel w = false ∨ fieldB w ≠ 0#8))

theorem exists_code {k : BitVec 4} (h0 : k ≠ 0#4) (h9 : k.toNat < 9) : ∃ op : CmdOp, k = op.code := by
  obtain rfl | rfl | rfl | rfl | rfl | rfl | rfl | rfl : k = 1#4 ∨ k = 2#4 ∨ k = 3#4 ∨ k = 4#4 ∨
      k = 5#4 ∨ k = 6#4 ∨ k = 7#4 ∨ k = 8#4 := by bv_omega
  exacts [⟨.init, rfl⟩, ⟨.clear, rfl⟩, ⟨.setBrightness, rfl⟩, ⟨.setLed, rfl⟩, ⟨.getLed, rfl⟩, ⟨.flush, rfl⟩,
    ⟨.setAddress, rfl⟩, ⟨.setRowCapacity, rfl⟩]

/-- With a command's OP, the cases of R94 say that the rest of its row does not match. -/
theorem reservedFields_iff_of_code {op : CmdOp} {w : CommandWord} (h : fieldOp w = op.code) :
    ReservedFields w ↔ (fieldRsv w = 0#2 → ¬ op.Fixes w) := by
  cases op <;> simp [ReservedFields, h, CmdOp.code, imp_iff_not_or]

theorem reservedFields_iff (w : CommandWord) : ReservedFields w ↔ ∀ op : CmdOp, ¬ op.Matches w := by
  refine ⟨fun hres op ⟨hop, hrsv, hfix⟩ => (reservedFields_iff_of_code hop).mp hres hrsv hfix,
    fun hnone => by_contra fun hres => ?_⟩
  have hcases := hres
  simp only [ReservedFields, not_or, Nat.not_le] at hcases
  obtain ⟨h0, h9, -⟩ := hcases
  obtain ⟨op, hop⟩ := exists_code h0 h9
  exact hres ((reservedFields_iff_of_code hop).mpr fun hrsv hfix => hnone op ⟨hop, hrsv, hfix⟩)

/-! ### The words of a command (R97) -/

section Words

variable (k : BitVec 4) (op : CmdOp) (dsel : Bool) (dev : Byte) (state : Bool) (a b : Byte)

theorem fieldOp_packed : fieldOp (packed (k.setWidth 32 <<< 28) dsel dev state a b) = k := by
  apply BitVec.eq_of_getLsbD_eq
  intro i hi
  interval_cases i <;> simp [fieldOp, packed, putSelector, putState, putA, putB]

theorem fieldRsv_packed : fieldRsv (packed (k.setWidth 32 <<< 28) dsel dev state a b) = 0#2 := by
  apply BitVec.eq_of_getLsbD_eq
  intro i hi
  interval_cases i <;> simp [fieldRsv, packed, putSelector, putState, putA, putB]

/-- The command's word with the given fields, RSV being 0. -/
def CmdOp.word : CommandWord := packed (op.code.setWidth 32 <<< 28) dsel dev state a b

@[simp] theorem fieldOp_word : fieldOp (op.word dsel dev state a b) = op.code := fieldOp_packed ..
@[simp] theorem fieldRsv_word : fieldRsv (op.word dsel dev state a b) = 0#2 := fieldRsv_packed ..
@[simp] theorem fieldDsel_word : fieldDsel (op.word dsel dev state a b) = dsel := fieldDsel_packed ..
@[simp] theorem fieldDev_word : fieldDev (op.word dsel dev state a b) = dev := fieldDev_packed ..
@[simp] theorem fieldState_word : fieldState (op.word dsel dev state a b) = state := fieldState_packed ..
@[simp] theorem fieldA_word : fieldA (op.word dsel dev state a b) = a := fieldA_packed ..
@[simp] theorem fieldB_word : fieldB (op.word dsel dev state a b) = b := fieldB_packed ..

@[simp] theorem CmdOp.matches_word : op.Matches (op.word dsel dev state a b) ↔
    op.Fixes (op.word dsel dev state a b) := by
  simp [CmdOp.Matches]

end Words

/-- A word is put together from its own fields. -/
theorem CmdOp.word_fields {op : CmdOp} {w : CommandWord} (hop : fieldOp w = op.code)
    (hrsv : fieldRsv w = 0#2) :
    op.word (fieldDsel w) (fieldDev w) (fieldState w) (fieldA w) (fieldB w) = w :=
  word_eq_iff_fields.mpr (by simp [hop, hrsv])

/-- The encoder gives back the word an instruction was read from: the fields it leaves out are those that the
row fixes. -/
theorem encode_build {op : CmdOp} {w : CommandWord} (h : op.Matches w) :
    encode (op.build w) = .command w := by
  obtain ⟨hclear, hbrightness, hset, hget, hflush, haddr, hrows⟩ := encode_packed
  obtain ⟨hop, hrsv, hfix⟩ := h
  calc encode (op.build w)
      = .command (op.word (fieldDsel w) (fieldDev w) (fieldState w) (fieldA w) (fieldB w)) := by
        cases op with
        | init =>
          obtain ⟨hstate, hdsel, hdev, ha, hb⟩ := hfix
          rw [hstate, hdsel, hdev, ha, hb]
          rfl
        | clear =>
          obtain ⟨hstate, ha, hb⟩ := hfix
          rw [hstate, ha, hb]
          exact hclear _ _
        | setBrightness =>
          obtain ⟨hstate, hb⟩ := hfix
          rw [hstate, hb]
          exact hbrightness _ _ _
        | setLed => exact hset _ _ _ _ _
        | getLed =>
          rw [show fieldState w = false from hfix]
          exact hget _ _ _ _
        | flush =>
          obtain ⟨hstate, ha, hb⟩ := hfix
          rw [hstate, ha, hb]
          exact hflush _ _
        | setAddress =>
          obtain ⟨hstate, hdsel, hb⟩ := hfix
          rw [hstate, hdsel, hb]
          exact haddr _ _
        | setRowCapacity =>
          obtain ⟨hstate, hdsel, hb⟩ := hfix
          rw [hstate, hdsel, hb]
          exact hrows _ _
    _ = .command w := by rw [CmdOp.word_fields hop hrsv]

/-- Every command is what some word of its row is read as. -/
theorem exists_build {i : Instr} (h : i.isCommand = true) :
    ∃ (op : CmdOp) (w : CommandWord), op.Matches w ∧ op.build w = i := by
  cases i with
  | init => exact ⟨.init, CmdOp.word .init false 0#8 false 0#8 0#8, by simp [CmdOp.build]⟩
  | clear dsel dev => exact ⟨.clear, CmdOp.word .clear dsel dev false 0#8 0#8, by simp [CmdOp.build]⟩
  | setBrightness dsel dev level =>
    exact ⟨.setBrightness, CmdOp.word .setBrightness dsel dev false level 0#8, by simp [CmdOp.build]⟩
  | setLed dsel dev state row col =>
    exact ⟨.setLed, CmdOp.word .setLed dsel dev state row col, by simp [CmdOp.build]⟩
  | getLed dsel dev row col =>
    exact ⟨.getLed, CmdOp.word .getLed dsel dev false row col, by simp [CmdOp.build]⟩
  | flush dsel dev => exact ⟨.flush, CmdOp.word .flush dsel dev false 0#8 0#8, by simp [CmdOp.build]⟩
  | setAddress dev addr =>
    exact ⟨.setAddress, CmdOp.word .setAddress true dev false addr 0#8, by simp [CmdOp.build]⟩
  | setRowCapacity dev rows =>
    exact ⟨.setRowCapacity, CmdOp.word .setRowCapacity true dev false rows 0#8, by simp [CmdOp.build]⟩
  | wPowerOn | wDisplaySetup | wDimming | wRamWrite => cases h

theorem decode_encode_of_isCommand {i : Instr} (h : i.isCommand = true) :
    decode (encode i) = .ok i := by
  obtain ⟨op, w, hw, rfl⟩ := exists_build h
  rw [encode_build hw, decode_of_matches hw]

/-! ### The words of a frame and their bytes (R86) -/

/-- The two bytes of a word, low byte first (R86). -/
def wordBytes (x : Word) : List Byte := [x.extractLsb' 0 8, x.extractLsb' 8 8]

theorem length_flatMap_wordBytes (ws : List Word) : (ws.flatMap wordBytes).length = 2 * ws.length := by
  simp [List.length_flatMap, wordBytes, Nat.mul_comm]

theorem wordsOfBytes_flatMap_wordBytes (ws : List Word) : wordsOfBytes (ws.flatMap wordBytes) = ws := by
  induction ws with
  | nil => rfl
  | cons x ws ih =>
    change (x.extractLsb' 8 8 ++ x.extractLsb' 0 8) :: wordsOfBytes (ws.flatMap wordBytes) = x :: ws
    rw [word_of_bytes, ih]

theorem flatMap_wordBytes_wordsOfBytes {bs : List Byte} (h : 2 ∣ bs.length) :
    (wordsOfBytes bs).flatMap wordBytes = bs := by
  induction bs using wordsOfBytes.induct with
  | case1 lo hi rest ih =>
    have hrest : 2 ∣ rest.length := by simpa using h
    rw [wordsOfBytes, List.flatMap_cons, ih hrest, wordBytes, low_byte, high_byte]
    rfl
  | case2 => simp at h
  | case3 => rfl

/-- R86's two forms of a frame's data: byte `k` by its index, and word by word. -/
theorem map_frameDataByte (ws : List Word) :
    (List.range (2 * ws.length)).map (frameDataByte ws) = ws.flatMap wordBytes := by
  induction ws with
  | nil => rfl
  | cons x ws ih =>
    have htail : ∀ k, frameDataByte (x :: ws) (k + 2) = frameDataByte ws k := fun k => by
      simp [frameDataByte]
    rw [List.length_cons, Nat.mul_succ, List.range_succ_eq_map, List.range_succ_eq_map,
      List.flatMap_cons, ← ih]
    simp only [List.map_cons, List.map_map]
    exact congrArg (wordBytes x ++ ·) (List.map_congr_left fun k _ => htail k)

theorem encode_wRamWrite {ws : List Word} (h : ws.length = Config.cols) :
    encode (.wRamWrite ws) = .wire (0x00#8 :: ws.flatMap wordBytes) := by
  rw [← map_frameDataByte, h]
  rfl

/-! ### Wire messages (R81 to R87) -/

theorem decode_wire_ok_iff {bs : List Byte} {i : Instr} :
    decode (.wire bs) = .ok i ↔ decodeMessage bs = some (i, []) := by
  rcases hm : decodeMessage bs with _ | ⟨j, _ | ⟨b, rest⟩⟩ <;> simp [decode, hm]

theorem decode_wire_error {bs : List Byte} (h : ∀ i, decode (.wire bs) ≠ .ok i) :
    decode (.wire bs) = .error (.unknownWireMessage bs) := by
  rcases hm : decodeMessage bs with _ | ⟨i, _ | ⟨b, rest⟩⟩
  · simp [decode, hm]
  · exact absurd (decode_wire_ok_iff.mpr hm) (h i)
  · simp [decode, hm]

theorem decode_frame {data : List Byte} (h : data.length = 2 * Config.cols) :
    decode (.wire (0x00#8 :: data)) = .ok (.wRamWrite (wordsOfBytes data)) := by
  rw [decode_wire_ok_iff]
  simp [decodeMessage, ← h]

theorem decode_encode_wDimming (level : BitVec 4) :
    decode (encode (.wDimming level)) = .ok (.wDimming level) := by
  revert level
  decide

theorem decode_encode_wRamWrite {ws : List Word} (h : ws.length = Config.cols) :
    decode (encode (.wRamWrite ws)) = .ok (.wRamWrite ws) := by
  rw [encode_wRamWrite h, decode_frame (by rw [length_flatMap_wordBytes, h]),
    wordsOfBytes_flatMap_wordBytes]

/-- A dimming byte is its opcode half over its low half (R84). -/
theorem encode_wDimming_extract {b : Byte} (h : b &&& 0xF0#8 = 0xE0#8) :
    encode (.wDimming (b.extractLsb' 0 4)) = .wire [b] := by
  revert b
  decide

theorem encode_wRamWrite_wordsOfBytes {data : List Byte} (h : data.length = 2 * Config.cols) :
    encode (.wRamWrite (wordsOfBytes data)) = .wire (0x00#8 :: data) := by
  have hbytes := flatMap_wordBytes_wordsOfBytes (h ▸ Nat.dvd_mul_right ..)
  have hlen : (wordsOfBytes data).length = Config.cols := by
    have := length_flatMap_wordBytes (wordsOfBytes data)
    rw [hbytes, h] at this
    omega
  rw [encode_wRamWrite hlen, hbytes]

/-- The byte strings that decode, and what they decode to (R87). -/
theorem decode_wire_cases {bs : List Byte} {i : Instr} (h : decode (.wire bs) = .ok i) :
    (bs = [0x21#8] ∧ i = .wPowerOn) ∨ (bs = [0x81#8] ∧ i = .wDisplaySetup) ∨
    (∃ b, b &&& 0xF0#8 = 0xE0#8 ∧ bs = [b] ∧ i = .wDimming (b.extractLsb' 0 4)) ∨
    ∃ data, data.length = 2 * Config.cols ∧ bs = 0x00#8 :: data ∧ i = .wRamWrite (wordsOfBytes data) := by
  have hmask : ∀ x : Byte, x &&& 0xFF#8 = x := fun _ => BitVec.and_allOnes
  rw [decode_wire_ok_iff] at h
  cases bs with
  | nil => cases h
  | cons b rest =>
    simp only [decodeMessage, hmask] at h
    split_ifs at h with hpower hsetup hdim hframe hlen <;>
      simp only [Option.some.injEq, Prod.mk.injEq] at h <;> obtain ⟨rfl, htail⟩ := h
    · exact .inl ⟨by rw [hpower, htail], rfl⟩
    · exact .inr (.inl ⟨by rw [hsetup, htail], rfl⟩)
    · exact .inr (.inr (.inl ⟨b, hdim, by rw [htail], rfl⟩))
    · have hle := List.drop_eq_nil_iff.mp htail
      exact .inr (.inr (.inr ⟨rest, by omega, by rw [hframe], by rw [List.take_of_length_le hle]⟩))

/-! ### Decode and encode are inverse -/

theorem decode_encode {i : Instr} (h : i.wellFormed = true) : decode (encode i) = .ok i := by
  cases i with
  | wPowerOn | wDisplaySetup => rfl
  | wDimming level => exact decode_encode_wDimming level
  | wRamWrite words => exact decode_encode_wRamWrite (by simpa [Instr.wellFormed] using h)
  | init | clear | setBrightness | setLed | getLed | flush | setAddress | setRowCapacity =>
    exact decode_encode_of_isCommand rfl

theorem encode_of_decode {c : Code} {i : Instr} (h : decode c = .ok i) : encode i = c := by
  cases c with
  | command w =>
    rcases decode_command_cases w with ⟨op, hop, hdec⟩ | ⟨-, hdec⟩ <;> rw [hdec] at h <;> cases h
    exact encode_build hop
  | wire bs =>
    rcases decode_wire_cases h with ⟨rfl, rfl⟩ | ⟨rfl, rfl⟩ | ⟨b, hb, rfl, rfl⟩ | ⟨data, hlen, rfl, rfl⟩
    · rfl
    · rfl
    · exact encode_wDimming_extract hb
    · exact encode_wRamWrite_wordsOfBytes hlen

end Sys2Proof

namespace Sys2Proof.Machine

/-! ### A step on a code that is no instruction -/

theorem step_of_decode_error {s : State} {r : Request} {rest : List Request} {e : DecodeError}
    (hp : s.pending = r :: rest) (hdec : decode r.code = .error e) :
    step s = rejectCode e (accept r rest s) := by
  simp [step, hp, hdec]

/-! ### The serializer (R86, R151 to R157) -/

theorem encFrame_eq (w : List Word) : encFrame w = 0x00#8 :: w.flatMap wordBytes := rfl

theorem getElem?_encFrame_data {w : List Word} {k : Nat} (h : k < 2 * w.length) :
    (encFrame w)[k + 1]? = some (frameDataByte w k) := by
  simp [encFrame_eq, ← map_frameDataByte, h]

theorem frameDataByte_of_getElem? {w : List Word} {c : Nat} {x : Word} (h : w[c]? = some x) :
    frameDataByte w (2 * c) = x.extractLsb' 0 8 ∧ frameDataByte w (2 * c + 1) = x.extractLsb' 8 8 := by
  simp [frameDataByte, h, Nat.mul_add_div]

theorem encBrightness_setWidth (level : BitVec 4) :
    encBrightness (level.setWidth 8) = [0xE0#8 ||| level.setWidth 8] := by
  revert level
  decide

/-- The serializer functions give what the encoder gives, so a wire row sends its own encoding (log 7). -/
theorem exec_of_encode_wire {i : Instr} {bytes : List Byte} (hw : i.wellFormed = true)
    (he : encode i = .wire bytes) (s : State) : exec i s = serialize bytes s := by
  cases i with
  | wPowerOn | wDisplaySetup =>
    cases he
    rfl
  | wDimming level =>
    cases he
    exact congrArg (serialize · s) (encBrightness_setWidth level)
  | wRamWrite words =>
    rw [encode_wRamWrite (by simpa [Instr.wellFormed] using hw)] at he
    cases he
    rfl
  | init | clear | setBrightness | setLed | getLed | flush | setAddress | setRowCapacity => cases he

theorem serialize_of_selected {s : State} (hacc : s.inputs.accepts = true)
    (hd : s.inputs.selDev < s.params.n) (hlen : s.addr.length = s.params.n) (bs : List Byte) :
    serialize bs s = .next { s with events := s.events ++ txn (s.busAddr s.inputs.selDev) bs } := by
  rw [serialize, if_pos hd, mux_single, txnFor_busAddr (hlen ▸ hd), emit_accepts hacc]

theorem serialize_of_no_device {s : State} (hd : s.params.n ≤ s.inputs.selDev) (bs : List Byte) :
    serialize bs s = .next s := by
  rw [serialize, if_neg (Nat.not_lt.mpr hd)]
  rfl

end Sys2Proof.Machine

namespace Sys2Proof.Assembler

/-! ### The assembler (R97, R98) -/

section Checked

variable {d : Option Nat} {row col s : Nat} {i : Instr}

theorem isCommand_of_setLedInstr (h : setLedInstr d row col s = some i) : i.isCommand = true := by
  simp only [setLedInstr, bind, Option.bind_eq_some_iff] at h
  obtain ⟨sel, -, st, -, r, -, c, -, ⟨⟩⟩ := h
  rfl

theorem isCommand_of_flushInstr (h : flushInstr d = some i) : i.isCommand = true := by
  obtain ⟨sel, -, rfl⟩ := Option.map_eq_some_iff.mp h
  rfl

theorem isCommand_of_clearInstr (h : clearInstr d = some i) : i.isCommand = true := by
  obtain ⟨sel, -, rfl⟩ := Option.map_eq_some_iff.mp h
  rfl

end Checked

/-- An accepted line stands for commands only. -/
theorem isCommand_of_instrs {l : Line} {is : List Instr} (h : instrs l = some is) :
    ∀ i ∈ is, i.isCommand = true := by
  cases l with
  | init | clearAll | flushAll =>
    cases h
    simp [Instr.isCommand]
  | clear =>
    obtain ⟨j, hj, rfl⟩ := Option.map_eq_some_iff.mp h
    simp [isCommand_of_clearInstr hj]
  | flush =>
    obtain ⟨j, hj, rfl⟩ := Option.map_eq_some_iff.mp h
    simp [isCommand_of_flushInstr hj]
  | setLed | ledOn | ledOff =>
    obtain ⟨j, hj, rfl⟩ := Option.map_eq_some_iff.mp h
    simp [isCommand_of_setLedInstr hj]
  | setBrightness =>
    obtain ⟨sel, -, hrest⟩ := Option.bind_eq_some_iff.mp h
    obtain ⟨l, -, ⟨⟩⟩ := Option.bind_eq_some_iff.mp hrest
    simp [Instr.isCommand]
  | getLed =>
    simp only [instrs, bind, Option.bind_eq_some_iff] at h
    obtain ⟨sel, -, r, -, c, -, ⟨⟩⟩ := h
    simp [Instr.isCommand]
  | setAddress | setRowCapacity =>
    simp only [instrs, bind, Option.bind_eq_some_iff] at h
    obtain ⟨dev, -, v, -, ⟨⟩⟩ := h
    simp [Instr.isCommand]
  | updateLed =>
    simp only [instrs, bind, Option.bind_eq_some_iff] at h
    obtain ⟨i, hi, j, hj, ⟨⟩⟩ := h
    simp [isCommand_of_setLedInstr hi, isCommand_of_flushInstr hj]

theorem assemble_eq_some_iff {l : Line} {codes : List Code} :
    assemble l = some codes ↔ ∃ is, instrs l = some is ∧ is.map encode = codes :=
  Option.map_eq_some_iff

theorem instrs_updateLed {d row col s : Nat} {is js : List Instr}
    (hset : instrs (.setLed (some d) row col s) = some is) (hflush : instrs (.flush (some d)) = some js) :
    instrs (.updateLed d row col s) = some (is ++ js) := by
  obtain ⟨i, hi, rfl⟩ := Option.map_eq_some_iff.mp hset
  obtain ⟨j, hj, rfl⟩ := Option.map_eq_some_iff.mp hflush
  simp [instrs, hi, hj]

theorem assemble_updateLed {d row col s : Nat} {ws vs : List Code}
    (hset : assemble (.setLed (some d) row col s) = some ws)
    (hflush : assemble (.flush (some d)) = some vs) :
    assemble (.updateLed d row col s) = some (ws ++ vs) := by
  obtain ⟨is, his, rfl⟩ := assemble_eq_some_iff.mp hset
  obtain ⟨js, hjs, rfl⟩ := assemble_eq_some_iff.mp hflush
  exact assemble_eq_some_iff.mpr ⟨is ++ js, instrs_updateLed his hjs, List.map_append⟩

end Sys2Proof.Assembler

namespace Sys2Proof.Machine

/-! ### The obligations -/

/-- Settles O2: a command is read from a word that its encoding gives back, and the wire rows likewise from
their bytes. -/
theorem decodeEncodeRoundTrip : Obligations.DecodeEncodeRoundTrip := fun _ => decode_encode

/-- Settles O3: what a row reads, with the fields the row fixes, is the whole word; and likewise for the bytes
of a message. -/
theorem encodeDecodeRoundTrip : Obligations.EncodeDecodeRoundTrip :=
  fun _ _ h => ⟨encode_of_decode h, decode_wellFormed h⟩

/-- Settles O4: R94's cases are the complement of R93's rows, read field by field. -/
theorem reservedWordsAreRefused : Obligations.ReservedWordsAreRefused := by
  intro w
  have hiff : decode (.command w) = .error (.reservedCommand w) ↔ ReservedFields w :=
    (decode_reserved_iff w).trans (reservedFields_iff w).symm
  exact ⟨hiff, fun s ins rest hp hres => step_of_decode_error hp (hiff.mpr hres)⟩

/-- Settles O34: the frame's data bytes are R86's, by their index. -/
theorem frameBytesFollowLayout : Obligations.FrameBytesFollowLayout := by
  intro w hw
  refine ⟨by rw [encFrame_length, hw], rfl, fun c hc => ?_⟩
  obtain ⟨x, hx⟩ : ∃ x, w[c]? = some x := ⟨_, List.getElem?_eq_getElem (hw ▸ hc)⟩
  obtain ⟨hlow, hhigh⟩ := frameDataByte_of_getElem? hx
  refine ⟨x, hx, ?_, ?_⟩
  · rw [Nat.add_comm, getElem?_encFrame_data (by omega), hlow]
  · rw [show 2 + 2 * c = 2 * c + 1 + 1 by omega, getElem?_encFrame_data (by omega), hhigh]

/-- Settles O36: a wire row serializes its own encoding. -/
theorem wireRowsSendTheirEncodedBytes : Obligations.WireRowsSendTheirEncodedBytes := by
  intro i bytes s hw he hinv
  rw [exec_of_encode_wire hw he]
  exact ⟨fun hacc hd => serialize_of_selected hacc hd hinv.addr_length bytes,
    fun hd => serialize_of_no_device hd bytes⟩

/-- Settles O46: an accepted line stands for commands, and commands round-trip. -/
theorem assembledWordsDecode : Obligations.AssembledWordsDecode := by
  intro l codes h
  obtain ⟨is, his, rfl⟩ := Assembler.assemble_eq_some_iff.mp h
  refine ⟨is, his, ?_⟩
  rw [List.map_map]
  exact List.map_congr_left fun i hi => decode_encode_of_isCommand (Assembler.isCommand_of_instrs his i hi)

/-- Settles O1: each word and each message is run through the decoder. -/
theorem specWordsDecode : Obligations.SpecWordsDecode := by
  unfold Obligations.SpecWordsDecode
  decide

/-- Settles O8: such bytes have the decode error that a step answers as the refusal. -/
theorem unknownWireBytesRefused : Obligations.UnknownWireBytesRefused :=
  fun _ _ _ _ hp hdec => step_of_decode_error hp (decode_wire_error hdec)

/-- Settles O47: a pseudo-command stands for the instructions of its expansion. -/
theorem pseudoCommandsExpand : Obligations.PseudoCommandsExpand :=
  ⟨fun _ _ _ => rfl, fun _ _ _ => rfl, rfl, rfl, fun _ _ _ _ _ _ => Assembler.assemble_updateLed⟩

end Sys2Proof.Machine

/-! PROOFS. The family of spec/41_address_table.md: what the two setters do by the legality of their operands
(R110, R111), that mode and buffer play no part in it (R112), and where transactions go after SET_ADDRESS
(R113, R114). -/

namespace Sys2Proof.Machine

/-! ### The accepted operands (R9, R10) -/

theorem addrLegal_iff (a : Byte) : addrLegal a = true ↔ 0x70 ≤ a.toNat ∧ a.toNat ≤ 0x77 := by
  simp [addrLegal, Config.addrMin, Config.addrMax, BitVec.le_def]

theorem rowsLegal_iff (r : Nat) : rowsLegal r = true ↔ r = 8 ∨ r = 12 ∨ r = 16 := by
  simp [rowsLegal, Config.rowCaps]

/-! ### SET_ADDRESS (R110) -/

/-- The state after an accepted SET_ADDRESS: the entry, and the response 1 (R110). -/
def readdress (s : State) (d : Nat) (a : Byte) : State :=
  respond true { s with addr := s.addr.set d a }

theorem readdress_entry_same {s : State} {d : Nat} (hd : d < s.addr.length) (a : Byte) :
    (readdress s d a).addr[d]? = some a :=
  List.getElem?_set_self hd

theorem readdress_entry_other (s : State) {d e : Nat} (hne : e ≠ d) (a : Byte) :
    (readdress s d a).addr[e]? = s.addr[e]? :=
  List.getElem?_set_ne hne.symm

/-- The frame-buffer words of a device do not depend on the address table (R158). -/
theorem slice_readdress (s : State) (d : Nat) (a : Byte) (e : Nat) :
    slice (readdress s d a) e = slice s e := rfl

theorem exec_setAddress_of_legal {s : State} {dev addr : Byte}
    (h : dev.toNat < s.params.n ∧ addrLegal addr = true) :
    exec (.setAddress dev addr) s = .next (readdress s dev.toNat addr) :=
  if_pos (by simpa using h)

theorem exec_setAddress_of_not_legal {s : State} {dev addr : Byte}
    (h : ¬ (dev.toNat < s.params.n ∧ addrLegal addr = true)) :
    exec (.setAddress dev addr) s = .next (respond false s) :=
  if_neg (by simpa using h)

/-! ### SET_ROW_CAPACITY (R111) -/

theorem exec_setRowCapacity_of_legal {s : State} {dev rows : Byte}
    (h : dev.toNat < s.params.n ∧ rowsLegal rows.toNat = true) :
    exec (.setRowCapacity dev rows) s =
      .next { s with rows := s.rows.set dev.toNat (rows.setWidth 5) } :=
  if_pos (by simpa using h)

theorem exec_setRowCapacity_of_not_legal {s : State} {dev rows : Byte}
    (h : ¬ (dev.toNat < s.params.n ∧ rowsLegal rows.toNat = true)) :
    exec (.setRowCapacity dev rows) s = .next s :=
  if_neg (by simpa using h)

/-- No bit of a legal capacity is lost in the table's 5 bits (R36, R111). -/
theorem toNat_setWidth_of_rowsLegal {rows : Byte} (h : rowsLegal rows.toNat = true) :
    (rows.setWidth 5).toNat = rows.toNat := by
  have hcap := (rowsLegal_iff _).mp h
  rw [BitVec.toNat_setWidth, Nat.mod_eq_of_lt (by omega)]

/-! ### One device's transactions go to its entry (R156, R157) -/

/-- What the multiplexer sends for a command to one existing device: one transaction, to its entry. -/
theorem mux_target {s : State} {dev a : Byte} (hd : dev.toNat < s.params.n)
    (ha : s.addr[dev.toNat]? = some a) (f : Nat → List Byte) :
    mux s (targets s.params.n true dev) f = txn a (f dev.toNat) := by
  have htargets : targets s.params.n true dev = [dev.toNat] := if_pos hd
  rw [htargets, mux_single, txnFor_of_entry ha]

theorem mux_pair_of_same_entry {s : State} {d e : Nat} {a : Byte} (hd : s.addr[d]? = some a)
    (he : s.addr[e]? = some a) (bs : List Byte) :
    mux s [d, e] (fun _ => bs) = txn a bs ++ txn a bs := by
  simp [mux, txnFor_of_entry hd, txnFor_of_entry he]

theorem exec_setBrightness_target {s : State} {dev a : Byte} (hd : dev.toNat < s.params.n)
    (ha : s.addr[dev.toNat]? = some a) (hacc : s.inputs.accepts = true) (level : Byte) :
    exec (.setBrightness true dev level) s =
      .next { s with events := s.events ++ txn a (encBrightness level) } := by
  rw [exec_setBrightness, mux_target hd ha, emit_accepts hacc]

theorem exec_flush_target {s : State} {dev a : Byte} (hm : s.mode = .ready)
    (hd : dev.toNat < s.params.n) (ha : s.addr[dev.toNat]? = some a)
    (hacc : s.inputs.accepts = true) :
    exec (.flush true dev) s =
      .next { s with events := s.events ++ txn a (encFrame (slice s dev.toNat)) } := by
  rw [exec_flush_of_ready hm, flushEvents, mux_target hd ha, emit_accepts hacc]

/-! ### The obligations -/

/-- Settles O25: SET_ADDRESS of a table entry is legal, and writes it whether the two devices differ or not. -/
theorem duplicateAddressIsAccepted : Obligations.DuplicateAddressIsAccepted := by
  intro s d e hinv hd he
  have hdlen : d.toNat < s.addr.length := hinv.addr_length ▸ hd
  have helen : e.toNat < s.addr.length := hinv.addr_length ▸ he
  obtain ⟨a, hda⟩ : ∃ a, s.addr[d.toNat]? = some a := ⟨_, List.getElem?_eq_getElem hdlen⟩
  have hlegal : addrLegal a = true := hinv.addr_legal a (List.mem_of_getElem? hda)
  have hte := readdress_entry_same helen a
  have htd : (readdress s e.toNat a).addr[d.toNat]? = some a := by
    by_cases hde : d.toNat = e.toNat
    · rw [hde, hte]
    · rw [readdress_entry_other s hde, hda]
  exact ⟨a, _, hda, exec_setAddress_of_legal ⟨he, hlegal⟩, rfl, htd, hte, mux_pair_of_same_entry htd hte⟩

/-- Settles O26: the new entry is where the device's brightness and frame go, and every other entry stands. -/
theorem readdressRedirectsLaterTransactions : Obligations.ReaddressRedirectsLaterTransactions := by
  intro s dev addr level hinv hacc hd hmin hmax
  have hlegal : addrLegal addr = true := (addrLegal_iff addr).mpr ⟨hmin, hmax⟩
  have hentry := readdress_entry_same (hinv.addr_length ▸ hd) addr
  refine ⟨readdress s dev.toNat addr, exec_setAddress_of_legal ⟨hd, hlegal⟩, rfl,
    exec_setBrightness_target (s := readdress s dev.toNat addr) hd hentry hacc level,
    fun hm => ?_, fun d bs hne => ?_⟩
  · rw [exec_flush_target (s := readdress s dev.toNat addr) hm hd hentry hacc, slice_readdress]
    rfl
  · simp only [txnFor, readdress_entry_other s hne]

/-- Settles O22: the accepted addresses are 0x70 to 0x77, and an accepted one replaces the one entry. -/
theorem setAddressWritesOrRejects : Obligations.SetAddressWritesOrRejects := by
  intro s dev addr hlen legal
  have hiff : legal ↔ dev.toNat < s.params.n ∧ addrLegal addr = true :=
    and_congr_right' (addrLegal_iff addr).symm
  rw [hiff]
  refine ⟨fun h => ⟨_, exec_setAddress_of_legal h, List.length_set, ?_, fun d hne => ?_⟩,
    exec_setAddress_of_not_legal⟩
  · exact readdress_entry_same (hlen ▸ h.1) addr
  · exact readdress_entry_other s hne addr

/-- Settles O23: the accepted capacities are 8, 12 and 16, and an accepted one replaces the one entry whole. -/
theorem setRowCapacityWritesOrIgnores : Obligations.SetRowCapacityWritesOrIgnores := by
  intro s dev rows hlen legal
  have hiff : legal ↔ dev.toNat < s.params.n ∧ rowsLegal rows.toNat = true :=
    and_congr_right' (rowsLegal_iff rows.toNat).symm
  rw [hiff]
  refine ⟨fun h => ⟨_, exec_setRowCapacity_of_legal h, List.length_set, ?_, fun d hne => ?_⟩,
    exec_setRowCapacity_of_not_legal⟩
  · obtain ⟨hd, hrows⟩ := h
    rw [List.getElem?_set_self (hlen ▸ hd), Option.map_some, toNat_setWidth_of_rowsLegal hrows]
  · exact List.getElem?_set_ne hne.symm

/-- Settles O24: each setter's two outcomes are chosen by `N` and the operands alone, which are the same in
both states, and each keeps the mode, the buffer and the output. -/
theorem settersIgnoreModeAndBuffer : Obligations.SettersIgnoreModeAndBuffer := by
  rintro s mode alloc fb i (⟨dev, addr, rfl⟩ | ⟨dev, rows, rfl⟩)
  · by_cases h : dev.toNat < s.params.n ∧ addrLegal addr = true
    · exact ⟨_, exec_setAddress_of_legal h, rfl, rfl, rfl, rfl, exec_setAddress_of_legal h⟩
    · exact ⟨_, exec_setAddress_of_not_legal h, rfl, rfl, rfl, rfl, exec_setAddress_of_not_legal h⟩
  · by_cases h : dev.toNat < s.params.n ∧ rowsLegal rows.toNat = true
    · exact ⟨_, exec_setRowCapacity_of_legal h, rfl, rfl, rfl, rfl, exec_setRowCapacity_of_legal h⟩
    · exact ⟨_, exec_setRowCapacity_of_not_legal h, rfl, rfl, rfl, rfl, exec_setRowCapacity_of_not_legal h⟩

end Sys2Proof.Machine

/-! PROOFS. The family of spec/42_frame_buffer.md: the check of an LED (R130 to R132), what CLEAR zeroes (R133),
the one bit SET_LED writes and GET_LED answers (R134, R135), and the bits a lowered capacity hides (R136, R247). -/

namespace Sys2Proof.Machine

/-! ### CLEAR (R133) -/

theorem mem_targets_iff {n d : Nat} {dsel : Bool} {dev : Byte} :
    d ∈ targets n dsel dev ↔ d < n ∧ (dsel = false ∨ d = dev.toNat) := by
  cases dsel with
  | false => simp [targets]
  | true =>
    by_cases hdev : dev.toNat < n
    · have hlt : d = dev.toNat → d < n := fun h => h ▸ hdev
      simpa [targets, hdev] using hlt
    · have hne : d < n → d ≠ dev.toNat := fun hd h => hdev (h ▸ hd)
      simpa [targets, hdev] using hne

theorem targets_of_no_device {n : Nat} {dev : Byte} (h : n ≤ dev.toNat) : targets n true dev = [] :=
  if_neg (Nat.not_lt.mpr h)

/-- Every index is the index of its quotient and remainder by `COLS` (R62). -/
theorem fbIndex_div_mod (i : Nat) : fbIndex (i / 8) (i % 8) = i := Nat.div_add_mod' i 8

/-- What clearing the slices of some devices leaves at each index (R62, R133). -/
theorem memRead_foldl_clearSlice {s : State} (hwf : s.fb.wf) (ds : List Nat) (i : Nat) :
    memRead (ds.foldl clearSlice s) i = if i / 8 ∈ ds then 0#16 else memRead s i := by
  have hcol : i % 8 < Config.cols := Nat.mod_lt i (by decide)
  simpa only [fbIndex_div_mod] using (foldl_clearSlice_spec s hwf ds).2 (i / 8) (i % 8) hcol

/-! ### The check of an LED (R130, R132) -/

theorem ledInRange_iff (s : State) (d row col : Nat) :
    (bufferUsable s && inRange s d row col) = true ↔ LedInRange s d row col := by
  have hcols : col < Config.cols ↔ col < 8 := Iff.rfl
  cases hcap : s.rows[d]? with
  | none => simp [inRange, LedInRange, hcap]
  | some cap =>
    simp [bufferUsable, inRange, LedInRange, hcap, hcols, and_assoc, and_comm (a := row < cap.toNat)]

/-- A row in range is a bit of the 16-bit word (R10, R64). -/
theorem LedInRange.row_lt {s : State} {d row col : Nat} (h : LedInRange s d row col) (hinv : s.Inv) :
    row < 16 := by
  obtain ⟨-, -, -, cap, hcap, hrow⟩ := h
  have hlegal := (rowsLegal_iff _).mp (hinv.rows_legal cap (List.mem_of_getElem? hcap))
  omega

/-- The word of an LED in range exists (R40, R41). -/
theorem LedInRange.word_exists {s : State} {d row col : Nat} (h : LedInRange s d row col) (hinv : s.Inv) :
    fbExists s (fbIndex d col) = true := by
  obtain ⟨hm, hd, hcol, -⟩ := h
  exact fbExists_of_allocated (hinv.alloc_ready.mpr hm) (fbIndex_lt hd hcol)

/-! ### SET_LED and GET_LED (R134, R135) -/

/-- The word SET_LED writes for a row's new state (R134). -/
def ledWord (old : Word) (row : Nat) (state : Bool) : Word :=
  if state then setRow old row else clearRow old row

/-- The state after SET_LED of an LED in range (R134). -/
def writeLed (s : State) (d row col : Nat) (state : Bool) : State :=
  memWrite s (fbIndex d col) (ledWord (memRead s (fbIndex d col)) row state)

theorem getLsbD_ledWord {row : Nat} (hrow : row < 16) (old : Word) (state : Bool) (r : Nat) :
    (ledWord old row state).getLsbD r = if r = row then state else old.getLsbD r := by
  have hbit : (1#16 <<< row).getLsbD r = decide (r = row) := by
    rw [← BitVec.twoPow_eq, BitVec.getLsbD_twoPow]
    simp [hrow, eq_comm]
  cases state with
  | true =>
    rw [ledWord, if_pos rfl, setRow, BitVec.getLsbD_or, hbit]
    by_cases hr : r = row <;> simp [hr]
  | false =>
    rw [ledWord, if_neg (by decide), clearRow, BitVec.getLsbD_and, BitVec.getLsbD_not, hbit]
    by_cases hr : r = row
    · simp [hr]
    · have hkeep : old.getLsbD r = true → r < 16 := BitVec.lt_of_getLsbD
      simpa [hr] using hkeep

theorem getLsbD_memRead_writeLed {s : State} {d row col : Nat} (hinv : s.Inv)
    (h : LedInRange s d row col) (state : Bool) (i r : Nat) :
    (memRead (writeLed s d row col state) i).getLsbD r =
      if i = fbIndex d col ∧ r = row then state else (memRead s i).getLsbD r := by
  rw [writeLed, memRead_memWrite hinv.fb_wf]
  by_cases hi : i = fbIndex d col
  · subst hi
    simp [h.word_exists hinv, getLsbD_ledWord (h.row_lt hinv)]
  · simp [hi]

/-- SET_LED changes neither `Mode`, `N` nor the row capacities, so it keeps every LED's range (R132). -/
theorem ledInRange_writeLed {s : State} {d row col e row' col' : Nat} {state : Bool} :
    LedInRange (writeLed s d row col state) e row' col' ↔ LedInRange s e row' col' := Iff.rfl

section Led

variable {s : State} {dsel : Bool} {dev row col : Byte}

theorem exec_setLed_of_inRange (h : LedInRange s (ledDevice dsel dev) row.toNat col.toNat)
    (state : Bool) : exec (.setLed dsel dev state row col) s =
      .next (writeLed s (ledDevice dsel dev) row.toNat col.toNat state) :=
  if_pos ((ledInRange_iff ..).mpr h)

theorem exec_setLed_of_not_inRange (h : ¬ LedInRange s (ledDevice dsel dev) row.toNat col.toNat)
    (state : Bool) : exec (.setLed dsel dev state row col) s = .next s :=
  if_neg (mt (ledInRange_iff ..).mp h)

theorem exec_getLed_of_inRange (h : LedInRange s (ledDevice dsel dev) row.toNat col.toNat) :
    exec (.getLed dsel dev row col) s = .next (respond
      ((memRead s (fbIndex (ledDevice dsel dev) col.toNat)).getLsbD row.toNat) s) :=
  if_pos ((ledInRange_iff ..).mpr h)

theorem exec_getLed_of_not_inRange (h : ¬ LedInRange s (ledDevice dsel dev) row.toNat col.toNat) :
    exec (.getLed dsel dev row col) s = .next (respond false s) :=
  if_neg (mt (ledInRange_iff ..).mp h)

end Led

/-! ### A new capacity (R136, R247) -/

/-- Rows at or above a capacity just configured are out of range, whatever the capacity was before. -/
theorem not_ledInRange_of_capacity_le {s : State} {dev rows : Byte} {row : Nat}
    (hd : dev.toNat < s.rows.length) (hrows : rowsLegal rows.toNat = true) (hrow : rows.toNat ≤ row)
    (col : Nat) :
    ¬ LedInRange { s with rows := s.rows.set dev.toNat (rows.setWidth 5) } dev.toNat row col := by
  rintro ⟨-, -, -, cap, hcap, hlt⟩
  rw [List.getElem?_set_self hd, Option.some.injEq] at hcap
  rw [← hcap, toNat_setWidth_of_rowsLegal hrows] at hlt
  omega

theorem addr_getElem?_of_lt {s : State} {d : Nat} (hd : d < s.addr.length) :
    s.addr[d]? = some (s.busAddr d) := by
  simp [State.busAddr, hd]

/-! ### The obligations -/

/-- Settles O28: an index belongs to the device `i / 8`, and CLEAR zeroes the slices of its targets. -/
theorem clearZeroesExactlyItsTargets : Obligations.ClearZeroesExactlyItsTargets := by
  intro s dsel dev hinv
  refine ⟨fun hm => ?_, fun hm => exec_clear_of_not_ready hm dsel dev, fun hsel hdev => ?_⟩
  · have hfb := foldl_clearSlice_sameButFb (targets s.params.n dsel dev) s
    refine ⟨_, (exec_clear_of_ready hm dsel dev).trans (congrArg _ hfb), fun i => ?_⟩
    have hlt : i / 8 < s.params.n ↔ i < 8 * s.params.n := by omega
    rw [← hfb, memRead_foldl_clearSlice hinv.fb_wf]
    simp only [mem_targets_iff, hlt]
  · subst hsel
    by_cases hm : s.mode = .ready
    · rw [exec_clear_of_ready hm, targets_of_no_device hdev, List.foldl_nil]
    · exact exec_clear_of_not_ready hm true dev

/-- Settles O29: SET_LED is one word's write, and the word written differs from the old one in bit `row`. -/
theorem setLedWritesExactlyOneBit : Obligations.SetLedWritesExactlyOneBit := by
  intro s dsel dev state row col hinv d
  exact ⟨fun h => ⟨_, exec_setLed_of_inRange h state, getLsbD_memRead_writeLed hinv h state⟩,
    fun h => exec_setLed_of_not_inRange h state⟩

/-- Settles O31: SET_LED leaves the LED in range, and GET_LED reads the bit it wrote. -/
theorem setLedThenGetLedRoundTrips : Obligations.SetLedThenGetLedRoundTrips := by
  intro s dsel dev state row col hinv h
  refine ⟨_, _, exec_setLed_of_inRange h state,
    exec_getLed_of_inRange (ledInRange_writeLed.mpr h), ?_⟩
  exact congrArg some ((getLsbD_memRead_writeLed hinv h ..).trans (if_pos ⟨rfl, rfl⟩))

/-- Settles O33: SET_ROW_CAPACITY leaves the buffer and the address table, and its entry puts the row out of
range; FLUSH reads no capacity. -/
theorem capacityShrinkKeepsHiddenBits : Obligations.CapacityShrinkKeepsHiddenBits := by
  intro s dev rows row col state hinv hm hacc hd hcap hrow
  have hrows : rowsLegal rows.toNat = true := (rowsLegal_iff _).mpr hcap
  have hout := not_ledInRange_of_capacity_le (hinv.rows_length ▸ hd) hrows hrow col.toNat
  have haddr := addr_getElem?_of_lt (hinv.addr_length ▸ hd)
  exact ⟨_, exec_setRowCapacity_of_legal ⟨hd, hrows⟩, fun _ => rfl, exec_getLed_of_not_inRange hout,
    exec_setLed_of_not_inRange hout state, exec_flush_target hm hd haddr hacc⟩

/-- Settles O30: the two branches of GET_LED, by the range of the LED. -/
theorem getLedAnswersTheBit : Obligations.GetLedAnswersTheBit := by
  intro s dsel dev row col d
  exact ⟨exec_getLed_of_inRange, exec_getLed_of_not_inRange⟩

/-- Settles O32: both commands read the selector through `ledDevice` alone, which is 0 for both forms. -/
theorem omittedLedDeviceIsDeviceZero : Obligations.OmittedLedDeviceIsDeviceZero :=
  fun _ _ _ _ _ => ⟨rfl, rfl⟩

end Sys2Proof.Machine

/-! PROOFS. The family of spec/43_protocol_encoder.md: the dimming byte (R153), what SET_BRIGHTNESS sends
(R185), what FLUSH reads of the state (R157 to R159), and that a step appends whole transactions of the four
messages (R87, R155). Every output of a step is read as a list of messages, each for one device. -/

namespace Sys2Proof.Machine

/-! ### The dimming byte (R153) -/

theorem encBrightness_eq (level : Byte) : encBrightness level = [0xE#4 ++ level.extractLsb' 0 4] := by
  rw [encBrightness, dimming_byte]

/-- The serializer reads the level modulo 16 (R153). -/
theorem encBrightness_congr {level level' : Byte} (h : level.toNat % 16 = level'.toNat % 16) :
    encBrightness level = encBrightness level' := by
  have hlow : level.extractLsb' 0 4 = level'.extractLsb' 0 4 :=
    BitVec.eq_of_toNat_eq (by simpa using h)
  rw [encBrightness_eq, encBrightness_eq, hlow]

/-! ### What FLUSH sends, in every mode (R158, R186) -/

/-- The events of a FLUSH that completes: none outside Ready (R130). -/
def flushOutput (s : State) (dsel : Bool) (dev : Byte) : List Event :=
  if s.mode = .ready then flushEvents s dsel dev else []

theorem exec_flush_of_accepts {s : State} (hacc : s.inputs.accepts = true) (dsel : Bool) (dev : Byte) :
    exec (.flush dsel dev) s = .next { s with events := s.events ++ flushOutput s dsel dev } := by
  by_cases hm : s.mode = .ready
  · rw [exec_flush_of_ready hm, emit_accepts hacc, flushOutput, if_pos hm]
  · rw [exec_flush_of_not_ready hm, flushOutput, if_neg hm, List.append_nil]

/-- FLUSH masks no row by its device's capacity (R159). -/
theorem flushOutput_withRows (s : State) (rows : List (BitVec 5)) (dsel : Bool) (dev : Byte) :
    flushOutput { s with rows := rows } dsel dev = flushOutput s dsel dev := rfl

/-- Of the address table the multiplexer reads the entries of the devices it sends to (R157). -/
theorem mux_congr_on {s s' : State} {ts : List Nat} {f g : Nat → List Byte}
    (h : ∀ d ∈ ts, s.addr[d]? = s'.addr[d]? ∧ f d = g d) : mux s ts f = mux s' ts g := by
  refine List.flatMap_congr fun d hd => ?_
  obtain ⟨haddr, hbytes⟩ := h d hd
  rw [txnFor, haddr, hbytes, txnFor]

theorem slice_congr {s s' : State} {d : Nat}
    (h : ∀ c, c < 8 → memRead s (d * 8 + c) = memRead s' (d * 8 + c)) : slice s d = slice s' d :=
  List.map_congr_left fun c hc => h c (List.mem_range.mp hc)

/-- FLUSH reads `N`, the mode, and the entry and the slice of each of its targets (R157, R158). -/
theorem flushOutput_congr {s s' : State} {dsel : Bool} {dev : Byte} (hn : s.params.n = s'.params.n)
    (hm : s.mode = s'.mode)
    (htargets : ∀ d ∈ targets s'.params.n dsel dev, s.addr[d]? = s'.addr[d]? ∧ slice s d = slice s' d) :
    flushOutput s dsel dev = flushOutput s' dsel dev := by
  have hevents : flushEvents s dsel dev = flushEvents s' dsel dev := by
    rw [flushEvents, hn, flushEvents]
    exact mux_congr_on fun d hd => (htargets d hd).imp_right (congrArg encFrame)
  rw [flushOutput, hm, hevents, flushOutput]

/-! ### Outputs as messages to devices (R155, R157) -/

/-- The transactions of a list of messages, each with the device it is for (R157). -/
def sendAll (s : State) (msgs : List (Nat × List Byte)) : List Event :=
  msgs.flatMap fun m => txnFor s m.1 m.2

/-- The messages whose device has an entry in the address table, each with that entry (R37). -/
def addressed (s : State) (msgs : List (Nat × List Byte)) : List (Byte × List Byte) :=
  msgs.filterMap fun m => s.addr[m.1]?.map fun a => (a, m.2)

theorem sendAll_eq_flatMap_txn (s : State) (msgs : List (Nat × List Byte)) :
    sendAll s msgs = (addressed s msgs).flatMap fun x => txn x.1 x.2 := by
  induction msgs with
  | nil => rfl
  | cons m msgs ih =>
    rw [sendAll, List.flatMap_cons, ← sendAll, ih]
    cases h : s.addr[m.1]? with
    | none => simp [addressed, txnFor, h]
    | some a => simp [addressed, txnFor, h]

theorem mem_addressed {s : State} {msgs : List (Nat × List Byte)} {x : Byte × List Byte}
    (h : x ∈ addressed s msgs) : x.1 ∈ s.addr ∧ ∃ m ∈ msgs, m.2 = x.2 := by
  obtain ⟨m, hm, hx⟩ := List.mem_filterMap.mp h
  obtain ⟨a, ha, rfl⟩ := Option.map_eq_some_iff.mp hx
  exact ⟨List.mem_of_getElem? ha, m, hm, rfl⟩

theorem mux_eq_sendAll (s : State) (ts : List Nat) (f : Nat → List Byte) :
    mux s ts f = sendAll s (ts.map fun d => (d, f d)) := by
  rw [sendAll, List.flatMap_map, mux]

/-- The messages of `InitDevice(d)` on a zeroed buffer (R183). -/
def initDeviceMessages (s : State) (d : Nat) : List (Nat × List Byte) :=
  [(d, encPowerOn), (d, encSetup), (d, encBrightness (s.params.defaultBrightness.setWidth 8)),
    (d, encFrame (List.replicate Config.cols 0#16))]

theorem initDeviceEvents_eq_sendAll (s : State) (d : Nat) :
    initDeviceEvents s d = sendAll s (initDeviceMessages s d) := by
  simp [initDeviceEvents, sendAll, initDeviceMessages]

theorem initDeviceMessages_wire {s : State} {d : Nat} {m : Nat × List Byte}
    (h : m ∈ initDeviceMessages s d) : WireMessage m.2 := by
  simp only [initDeviceMessages, List.mem_cons, List.not_mem_nil, or_false] at h
  rcases h with rfl | rfl | rfl | rfl
  · exact encPowerOn_wire
  · exact encSetup_wire
  · exact encBrightness_wire _
  · exact encFrame_wire (by simp)

/-- The output of the second state is that of the first and after it wire messages to devices. -/
def AppendsMessages (s t : State) : Prop :=
  ∃ msgs, t.events = s.events ++ sendAll s msgs ∧ ∀ m ∈ msgs, WireMessage m.2

theorem appendsMessages_of_events_eq {s t : State} (h : t.events = s.events) : AppendsMessages s t :=
  ⟨[], by simp [h, sendAll], by simp⟩

/-- An instruction only appends to the output, and what it appends are wire messages to devices. -/
theorem Effect.appendsMessages {i : Instr} {s t : State} (heff : Effect i s t)
    (hw : i.wellFormed = true) : AppendsMessages s t := by
  cases heff with
  | configures =>
    refine ⟨(List.range s.params.n).flatMap (initDeviceMessages s), ?_, fun m hm => ?_⟩
    · rw [sendAll, List.flatMap_assoc, funext (initDeviceEvents_eq_sendAll s)]
      rfl
    · obtain ⟨d, -, hd⟩ := List.mem_flatMap.mp hm
      exact initDeviceMessages_wire hd
  | sends _ _ ts f _ hf =>
    refine ⟨ts.map fun d => (d, f d), by rw [mux_eq_sendAll], fun m hm => ?_⟩
    obtain ⟨d, hd, rfl⟩ := List.mem_map.mp hm
    exact hf hw d hd
  | _ => exact appendsMessages_of_events_eq (by simp)

/-- A step does so too: neither acceptance nor `refuse` writes to the output (R87, R155). -/
theorem step_appendsMessages {s t : State} (h : step s = .next t) : AppendsMessages s t := by
  rcases step_cases h with ⟨-, rfl⟩ | ⟨r, rest, i, -, -, hw, heff⟩ | ⟨r, rest, w, -, -, rfl⟩
  · exact appendsMessages_of_events_eq rfl
  · exact heff.appendsMessages hw
  · exact appendsMessages_of_events_eq rfl

/-- The lengths and opening bytes of the wire messages (R87). -/
theorem WireMessage.opening {bs : List Byte} (h : WireMessage bs) :
    (bs.length = 17 ∧ bs[0]? = some 0x00#8) ∨ bs = [0x21#8] ∨ bs = [0x81#8] ∨
      ∃ level : BitVec 4, bs = [0xE#4 ++ level] := by
  rcases h with h | h | h | ⟨data, hlen, rfl⟩
  · exact .inr (.inl h)
  · exact .inr (.inr (.inl h))
  · exact .inr (.inr (.inr h))
  · exact .inl ⟨by simp [hlen], rfl⟩

/-! ### The obligations -/

/-- Settles O19: the messages a step sends, each under the table's entry for its device, are the appended
transactions. -/
theorem stepAppendsWholeTransactions : Obligations.StepAppendsWholeTransactions := by
  refine ⟨fun _ _ => rfl, fun s t h => ?_⟩
  obtain ⟨msgs, hevents, hwire⟩ := step_appendsMessages h
  refine ⟨addressed s msgs, by rw [hevents, sendAll_eq_flatMap_txn], fun x hx => ?_⟩
  obtain ⟨haddr, m, hm, hbytes⟩ := mem_addressed hx
  exact ⟨haddr, (hbytes ▸ hwire m hm).opening⟩

/-- Settles O41: FLUSH sends the same events under another capacity table. -/
theorem flushIgnoresRowCapacity : Obligations.FlushIgnoresRowCapacity := by
  intro s rows dsel dev hacc
  refine ⟨flushOutput s dsel dev, exec_flush_of_accepts hacc dsel dev, ?_⟩
  rw [exec_flush_of_accepts (by simpa using hacc), flushOutput_withRows]

/-- Settles O42: the one target, if it exists, is the device whose entry and words the two states share. -/
theorem flushReadsOnlyItsDevice : Obligations.FlushReadsOnlyItsDevice := by
  intro s s' dev hn hm hacc hacc' haddr hwords
  have hsame : flushOutput s true dev = flushOutput s' true dev :=
    flushOutput_congr hn hm fun d hd => by
      obtain rfl : d = dev.toNat := by simpa using (mem_targets_iff.mp hd).2
      exact ⟨haddr, slice_congr hwords⟩
  exact ⟨flushOutput s true dev, exec_flush_of_accepts hacc true dev,
    hsame ▸ exec_flush_of_accepts hacc' true dev⟩

/-- Settles O35: the byte holds the level's low four bits, and SET_BRIGHTNESS reads the level through it. -/
theorem dimmingUsesLowFourBits : Obligations.DimmingUsesLowFourBits := by
  refine ⟨encBrightness_eq, fun s dsel dev level level' h => ?_⟩
  rw [exec_setBrightness, exec_setBrightness, encBrightness_congr h]

/-- Settles O38: every target has an address entry, so the multiplexer sends each the dimming byte. -/
theorem setBrightnessSendsToEachTarget : Obligations.SetBrightnessSendsToEachTarget := by
  intro s dsel dev level hlen hacc
  have hts : ∀ d ∈ targets s.params.n dsel dev, d < s.addr.length := fun d hd =>
    hlen ▸ lt_of_mem_targets hd
  rw [exec_setBrightness, emit_accepts hacc, mux_eq_flatMap_txn hts, encBrightness_eq]
  rfl

end Sys2Proof.Machine

/-! PROOFS. The family of spec/44_device_controller.md: the step runs what it decoded (R180), every instruction is
one emission after a silent change of state, so it completes or is stuck by its output alone (R210, R218, R250),
which commands transmit (R181), INIT by mode and allocation (R182 to R184), and the output sizes (R254). -/

namespace Sys2Proof.Machine

/-! ### The step (R180) -/

theorem step_of_decode_ok {s : State} {r : Request} {rest : List Request} {i : Instr}
    (hp : s.pending = r :: rest) (hdec : decode r.code = .ok i) : step s = exec i (accept r rest s) := by
  simp [step, hp, hdec]

/-! ### INIT where it sends nothing (R182, R184) -/

theorem exec_init_of_allocFails {s : State} (hm : s.mode = .uninitialized)
    (ha : s.inputs.allocOk = false) : exec .init s = .next { s with mode := .disabled } := by
  simp [exec, execInit, hm, ha]

theorem exec_init_of_not_uninitialized {s : State} (hm : s.mode ≠ .uninitialized) :
    exec .init s = .next (refuse .reInit s) := by
  cases hs : s.mode with
  | uninitialized => exact absurd hs hm
  | ready | disabled => simp [exec, execInit, hs]

/-! ### The output of each instruction (R181) -/

/-- The events of INIT: each device's transactions in index order when it allocates, else none (R182, R184). -/
def initOutput (s : State) : List Event :=
  if s.mode = .uninitialized ∧ s.inputs.allocOk = true then
    (List.range s.params.n).flatMap (initDeviceEvents s)
  else []

/-- The events of a wire row run by itself: one message to the selected device, if it exists (log 7). -/
def serializeOutput (bs : List Byte) (s : State) : List Event :=
  mux s (if s.inputs.selDev < s.params.n then [s.inputs.selDev] else []) fun _ => bs

/-- The events an instruction sends to a transport that accepts them. -/
def output : Instr → State → List Event
  | .init, s => initOutput s
  | .clear .., _ => []
  | .setBrightness dsel dev level, s => mux s (targets s.params.n dsel dev) fun _ => encBrightness level
  | .setLed .., _ => []
  | .getLed .., _ => []
  | .flush dsel dev, s => flushOutput s dsel dev
  | .setAddress .., _ => []
  | .setRowCapacity .., _ => []
  | .wPowerOn, s => serializeOutput encPowerOn s
  | .wDisplaySetup, s => serializeOutput encSetup s
  | .wDimming level, s => serializeOutput (encBrightness (level.setWidth 8)) s
  | .wRamWrite words, s => serializeOutput (encFrame words) s

/-- What an instruction would send does not depend on whether the transport accepts (log 4). -/
theorem output_withAccepts (i : Instr) (s : State) (b : Bool) :
    output i { s with inputs := { s.inputs with accepts := b } } = output i s := by
  cases i <;> rfl

/-! ### Every instruction is one emission -/

/-- The instruction is the emission of `es` on a state with the same output so far and the same inputs. -/
def Emits (i : Instr) (s : State) (es : List Event) : Prop :=
  ∃ q : State, q.events = s.events ∧ q.inputs = s.inputs ∧ exec i s = emit es q

/-- A change of state that leaves output and inputs is the emission of no event. -/
theorem emits_nil {i : Instr} {s q : State} (h : exec i s = .next q) (hevents : q.events = s.events)
    (hinputs : q.inputs = s.inputs) : Emits i s [] :=
  ⟨q, hevents, hinputs, h⟩

theorem emits_init (s : State) : Emits .init s (initOutput s) := by
  by_cases h : s.mode = .uninitialized ∧ s.inputs.allocOk = true
  · rw [initOutput, if_pos h]
    obtain ⟨hm, ha⟩ := h
    exact ⟨allocate s, rfl, rfl, execInit_uninitialized hm ha⟩
  · rw [initOutput, if_neg h]
    by_cases hm : s.mode = .uninitialized
    · exact emits_nil (exec_init_of_allocFails hm (by simpa [hm] using h)) rfl rfl
    · exact emits_nil (exec_init_of_not_uninitialized hm) rfl rfl

theorem emits_clear (s : State) (dsel : Bool) (dev : Byte) : Emits (.clear dsel dev) s [] := by
  by_cases hm : s.mode = .ready
  · exact emits_nil (exec_clear_of_ready hm dsel dev) (by simp) (by simp)
  · exact emits_nil (exec_clear_of_not_ready hm dsel dev) rfl rfl

theorem emits_setLed (s : State) (dsel : Bool) (dev : Byte) (state : Bool) (row col : Byte) :
    Emits (.setLed dsel dev state row col) s [] := by
  by_cases h : LedInRange s (ledDevice dsel dev) row.toNat col.toNat
  · exact emits_nil (exec_setLed_of_inRange h state) rfl rfl
  · exact emits_nil (exec_setLed_of_not_inRange h state) rfl rfl

theorem emits_getLed (s : State) (dsel : Bool) (dev row col : Byte) :
    Emits (.getLed dsel dev row col) s [] := by
  by_cases h : LedInRange s (ledDevice dsel dev) row.toNat col.toNat
  · exact emits_nil (exec_getLed_of_inRange h) rfl rfl
  · exact emits_nil (exec_getLed_of_not_inRange h) rfl rfl

theorem emits_flush (s : State) (dsel : Bool) (dev : Byte) :
    Emits (.flush dsel dev) s (flushOutput s dsel dev) := by
  by_cases hm : s.mode = .ready
  · exact ⟨s, rfl, rfl, by rw [exec_flush_of_ready hm, flushOutput, if_pos hm]⟩
  · exact ⟨s, rfl, rfl, by rw [exec_flush_of_not_ready hm, flushOutput, if_neg hm, emit_nil]⟩

theorem emits_setAddress (s : State) (dev addr : Byte) : Emits (.setAddress dev addr) s [] := by
  by_cases h : dev.toNat < s.params.n ∧ addrLegal addr = true
  · exact emits_nil (exec_setAddress_of_legal h) rfl rfl
  · exact emits_nil (exec_setAddress_of_not_legal h) rfl rfl

theorem emits_setRowCapacity (s : State) (dev rows : Byte) : Emits (.setRowCapacity dev rows) s [] := by
  by_cases h : dev.toNat < s.params.n ∧ rowsLegal rows.toNat = true
  · exact emits_nil (exec_setRowCapacity_of_legal h) rfl rfl
  · exact emits_nil (exec_setRowCapacity_of_not_legal h) rfl rfl

/-- Every instruction is the emission of its output. -/
theorem emits_output (i : Instr) (s : State) : Emits i s (output i s) := by
  cases i with
  | init => exact emits_init s
  | clear dsel dev => exact emits_clear s dsel dev
  | setLed dsel dev state row col => exact emits_setLed s dsel dev state row col
  | getLed dsel dev row col => exact emits_getLed s dsel dev row col
  | flush dsel dev => exact emits_flush s dsel dev
  | setAddress dev addr => exact emits_setAddress s dev addr
  | setRowCapacity dev rows => exact emits_setRowCapacity s dev rows
  | setBrightness | wPowerOn | wDisplaySetup | wDimming | wRamWrite => exact ⟨s, rfl, rfl, rfl⟩

section Completion

variable {i : Instr} {s t : State}

/-- An instruction that completes has appended its output. -/
theorem exec_next_events (h : exec i s = .next t) : t.events = s.events ++ output i s := by
  obtain ⟨q, hevents, -, hexec⟩ := emits_output i s
  rw [emit_next (hexec.symm.trans h), hevents]

theorem exec_completes (hacc : s.inputs.accepts = true) : ∃ t, exec i s = .next t := by
  obtain ⟨q, -, hinputs, hexec⟩ := emits_output i s
  exact ⟨_, hexec.trans (emit_accepts (hinputs ▸ hacc) _)⟩

/-- An accepting transport takes something exactly when the output is not empty (R250). -/
theorem exec_transmits_iff (hacc : s.inputs.accepts = true) :
    (∃ t, exec i s = .next t ∧ t.events ≠ s.events) ↔ output i s ≠ [] := by
  obtain ⟨u, hu⟩ := exec_completes (i := i) hacc
  simp [hu, exec_next_events hu]

/-- An instruction is stuck exactly when it has output and the transport does not accept (R218, R250). -/
theorem exec_stuck_iff :
    exec i s = .fault .transportStuck ↔ s.inputs.accepts = false ∧ output i s ≠ [] := by
  obtain ⟨q, -, hinputs, hexec⟩ := emits_output i s
  rw [hexec, ← hinputs]
  refine ⟨fun h => ?_, fun ⟨hacc, hne⟩ => emit_stuck hacc hne⟩
  rcases emit_cases (output i s) q with hnext | ⟨hne, hacc, -⟩
  · cases hnext.symm.trans h
  · exact ⟨hacc, hne⟩

theorem exec_ne_refused (r : Refusal) : exec i s ≠ .refused r := by
  obtain ⟨q, -, -, hexec⟩ := emits_output i s
  rw [hexec]
  rcases emit_cases (output i s) q with h | ⟨-, -, h⟩ <;> simp [h]

end Completion

/-- A command with output is one of the three transmitters (R181). -/
theorem transmitter_of_output_ne_nil {i : Instr} {s : State} (hcmd : i.isCommand = true)
    (h : output i s ≠ []) : i = .init ∨ (∃ dsel dev level, i = .setBrightness dsel dev level) ∨
      ∃ dsel dev, i = .flush dsel dev := by
  cases i with
  | init => exact .inl rfl
  | setBrightness dsel dev level => exact .inr (.inl ⟨dsel, dev, level, rfl⟩)
  | flush dsel dev => exact .inr (.inr ⟨dsel, dev, rfl⟩)
  | clear | setLed | getLed | setAddress | setRowCapacity => exact absurd rfl h
  | wPowerOn | wDisplaySetup | wDimming | wRamWrite => cases hcmd

/-! ### Output sizes (R254) -/

theorem outputSize_append (a b : List Event) : outputSize (a ++ b) = outputSize a + outputSize b := by
  simp [outputSize]

theorem outputSize_txn (a : Byte) (bs : List Byte) :
    outputSize (txn a bs) = (1, bs.length, bs.length + 2) := by
  simp [outputSize, txn, List.countP_map]

/-- Outputs of one size for each device of a list. -/
theorem outputSize_flatMap {l : List Nat} {f : Nat → List Event} {k : Nat × Nat × Nat}
    (h : ∀ d ∈ l, outputSize (f d) = k) : outputSize (l.flatMap f) = l.length • k := by
  induction l with
  | nil => simp [outputSize]
  | cons d l ih =>
    have hd : outputSize (f d) = k := h d (by simp)
    rw [List.flatMap_cons, outputSize_append, hd, ih fun e he => h e (by simp [he]), List.length_cons,
      succ_nsmul']

theorem outputSize_txnFor {s : State} {d : Nat} (hd : d < s.addr.length) (bs : List Byte) :
    outputSize (txnFor s d bs) = (1, bs.length, bs.length + 2) := by
  rw [txnFor_busAddr hd, outputSize_txn]

theorem length_targets (n : Nat) (dsel : Bool) (dev : Byte) :
    (targets n dsel dev).length = if dsel = true then (if dev.toNat < n then 1 else 0) else n := by
  cases dsel with
  | false => simp [targets]
  | true => by_cases hdev : dev.toNat < n <;> simp [targets, hdev]

section Sizes

variable {s : State} (hlen : s.addr.length = s.params.n)
include hlen

/-- A message of one length to each target (R157, R254). -/
theorem outputSize_mux_targets (dsel : Bool) (dev : Byte) {f : Nat → List Byte} {m : Nat}
    (hf : ∀ d, (f d).length = m) : outputSize (mux s (targets s.params.n dsel dev) f) =
      (targets s.params.n dsel dev).length • (1, m, m + 2) :=
  outputSize_flatMap fun d hd => by rw [outputSize_txnFor (hlen ▸ lt_of_mem_targets hd), hf]

/-- INIT's four transactions of one device: three of one byte and a frame (R183). -/
theorem outputSize_initDeviceEvents {d : Nat} (hd : d < s.params.n) :
    outputSize (initDeviceEvents s d) = (4, 20, 28) := by
  simp [initDeviceEvents, outputSize_append, outputSize_txnFor (hlen ▸ hd), Config.cols]

theorem outputSize_initOutput (hm : s.mode = .uninitialized) (ha : s.inputs.allocOk = true) :
    outputSize (initOutput s) = s.params.n • (4, 20, 28) := by
  rw [initOutput, if_pos ⟨hm, ha⟩,
    outputSize_flatMap fun d hd => outputSize_initDeviceEvents hlen (List.mem_range.mp hd), List.length_range]

/-- The four transactions with their bytes, to the device's entry (R183). -/
theorem initDeviceEvents_eq_txns {d : Nat} (hd : d < s.params.n) : initDeviceEvents s d =
    txn (s.busAddr d) [0x21#8] ++ txn (s.busAddr d) [0x81#8] ++
      txn (s.busAddr d) [0xE#4 ++ s.params.defaultBrightness] ++
      txn (s.busAddr d) (0x00#8 :: List.replicate 16 0x00#8) := by
  have hlevel : (s.params.defaultBrightness.setWidth 8).extractLsb' 0 4 = s.params.defaultBrightness :=
    BitVec.eq_of_toNat_eq (by simpa using s.params.defaultBrightness.isLt)
  simp only [initDeviceEvents, txnFor_busAddr (hlen ▸ hd), encBrightness_eq, hlevel]
  rfl

end Sizes

/-- The size of an instruction's appended events is that of its output. -/
theorem exists_output_of_size {i : Instr} {s : State} {k : Nat × Nat × Nat}
    (hacc : s.inputs.accepts = true) (h : outputSize (output i s) = k) :
    ∃ t es, exec i s = .next t ∧ t.events = s.events ++ es ∧ outputSize es = k := by
  obtain ⟨t, ht⟩ := exec_completes (i := i) hacc
  exact ⟨t, _, ht, exec_next_events ht, h⟩

/-! ### The obligations -/

/-- Settles O9: every instruction is one emission, and an accepting transport takes it. -/
theorem everyInstructionCompletes : Obligations.EveryInstructionCompletes :=
  fun _ _ => exec_completes

/-- Settles O10: both sides say that the transport does not accept and the output, which does not read
acceptance, is not empty. -/
theorem stuckExactlyWhenTransportRefuses : Obligations.StuckExactlyWhenTransportRefuses := by
  intro i s
  refine ⟨?_, exec_ne_refused⟩
  rw [exec_stuck_iff, exec_transmits_iff rfl, ← output_withAccepts i s true]

/-- Settles O18: only the three have output; INIT and SET_BRIGHTNESS have some at reset, FLUSH in Ready. -/
theorem exactlyThreeCommandsTransmit : Obligations.ExactlyThreeCommandsTransmit := by
  refine ⟨fun i s t hcmd h hne => transmitter_of_output_ne_nil (s := s) hcmd fun hnil => ?_,
    ⟨.reset, (exec_transmits_iff rfl).mpr (by decide)⟩,
    ⟨false, 0#8, 0#8, .reset, (exec_transmits_iff rfl).mpr (by decide)⟩,
    ⟨false, 0#8, { State.reset with mode := .ready }, (exec_transmits_iff rfl).mpr (by decide)⟩⟩
  rw [exec_next_events h, hnil, List.append_nil] at hne
  exact hne rfl

/-- Settles O37: the three outcomes of INIT; the allocated buffer is the empty listing, and every device has
an address entry for its four transactions. -/
theorem initByModeAndAllocation : Obligations.InitByModeAndAllocation := by
  intro s hinv
  refine ⟨fun hm ha hacc => ⟨[], ?_, fun i _ => memRead_of_fb_nil rfl i⟩, exec_init_of_allocFails,
    exec_init_of_not_uninitialized⟩
  rw [exec_init_of_uninitialized hm ha hacc, List.flatMap_congr fun d hd =>
    initDeviceEvents_eq_txns hinv.addr_length (List.mem_range.mp hd)]
  rfl

/-- Settles O44: an accepted instruction appends its output, and an output is its transactions' sizes summed. -/
theorem outputSizePerCommand : Obligations.OutputSizePerCommand := by
  intro s dsel dev a b state hinv hacc n T size
  have hT : (targets s.params.n dsel dev).length = T := length_targets ..
  have hlen := hinv.addr_length
  refine ⟨fun hm ha => exists_output_of_size hacc ?_, fun hm ha => exists_output_of_size hacc ?_,
    exists_output_of_size hacc ?_, fun hm => exists_output_of_size hacc ?_,
    fun hm => exists_output_of_size hacc ?_, exists_output_of_size hacc rfl,
    exists_output_of_size hacc rfl, exists_output_of_size hacc rfl, exists_output_of_size hacc rfl,
    exists_output_of_size hacc rfl⟩
  · simpa [output, mul_comm] using outputSize_initOutput hlen hm ha
  · simp [output, initOutput, ha, outputSize]
  · rw [output, outputSize_mux_targets hlen dsel dev fun _ => encBrightness_length a, hT]
    simp [mul_comm]
  · have hframe : ∀ d, (encFrame (slice s d)).length = 17 := fun d => by simp [Config.cols]
    rw [output, flushOutput, if_pos hm, flushEvents, outputSize_mux_targets hlen dsel dev hframe, hT]
    simp [mul_comm]
  · simp [output, flushOutput, hm, outputSize]

/-- Settles O5: acceptance takes the request from the stream and frees the response port. -/
theorem stepRunsDecodedInstruction : Obligations.StepRunsDecodedInstruction :=
  fun _ _ _ _ => step_of_decode_ok

end Sys2Proof.Machine

/-! PROOFS. The family of spec/70_reset_and_hazards.md: the state construction gives, row by row of R240's table,
and the block that waits (R241). -/

namespace Sys2Proof.Machine

/-! ### The state after construction (R240) -/

/-- Every device of at most eight starts at its offset from the base: no eight-bit sum wraps (R9, R35). -/
theorem defaultAddr_getElem?_toNat {n d : Nat} (hn : n ≤ Config.maxDevices) (hd : d < n) :
    ((defaultAddr n)[d]?).map BitVec.toNat = some (0x70 + d) := by
  have hsum : (Config.addrBase + BitVec.ofNat 8 d).toNat = 0x70 + d := by
    have hd8 : d < 8 := Nat.lt_of_lt_of_le hd hn
    simp only [Config.addrBase, BitVec.toNat_add, BitVec.toNat_ofNat]
    omega
  simp [defaultAddr, hd, hsum]

/-- Every device starts with the capacity 8, which fits the table's five bits (R36). -/
theorem defaultRows_getElem?_toNat {n d : Nat} (hd : d < n) :
    ((defaultRows n)[d]?).map BitVec.toNat = some 8 := by
  simp [defaultRows, hd, Config.rowMin]

/-- Before allocation no index is in the domain of the access primitives (R61). -/
theorem fbExists_of_unallocated {s : State} (h : s.alloc = .unallocated) (i : Nat) :
    fbExists s i = false := by
  simp [fbExists, h]

/-! ### The block without a request (R241) -/

theorem step_of_pending_nil {s : State} (h : s.pending = []) : step s = .next s := by
  simp [step, h]

/-! ### The obligations -/

/-- Settles O6: an empty stream is the step's first branch. -/
theorem idleStepWaits : Obligations.IdleStepWaits := fun _ => step_of_pending_nil

/-- Settles O11: legal parameters give the initial state, whose tables hold the defaults at every device. -/
theorem constructionGivesResetState : Obligations.ConstructionGivesResetState := by
  intro p hp
  have hinv := initial_inv hp
  exact ⟨State.initial p, construct_of_legal hp, rfl, rfl,
    hinv.addr_length, fun _ => defaultAddr_getElem?_toNat hp.2,
    hinv.rows_length, fun _ => defaultRows_getElem?_toNat,
    rfl, rfl, fbExists_of_unallocated rfl, rfl, rfl, rfl⟩

end Sys2Proof.Machine
